-- ==== Sys2Proof/Word.lean ====
section
/-! DEFINITION. The word types of the TD4 core: nibbles and bytes (spec 00_scope.md R6, R9). -/

namespace Sys2Proof

/-- A 4-bit value: the width of `a`, `b`, `in`, `out`, `pc`, an opcode and an immediate (R6, R9). -/
abbrev Nibble := BitVec 4

/-- An 8-bit value: one ROM entry, which is one instruction (R6). -/
abbrev Byte := BitVec 8

end Sys2Proof
end

