-- ==== Sys2Proof/Config.lean ====
section
/-! DEFINITION. What the host decides and the spec leaves open: the answer types of the two host
channels, one constant WITHOUT A BODY for each open value of the core (spec 00_scope.md R8;
92_eei_decisions.md D7, D9, D17; log entries 4 and 10), and the parameters that the host's tools take as
arguments (D12, D13, D18; log entry 24). No proof can see what a constant without a body is. -/

namespace Sys2Proof

/-- The host's answer to one input read: `InRead()` of R12, R103 (92_eei_decisions.md D7). -/
inductive InAnswer where
  /-- A 4-bit value. -/
  | value (v : Nibble)
  /-- The input stream has no further token. -/
  | exhausted
deriving DecidableEq, Repr, Inhabited

/-- The host's answer to one trace write: `TraceWrite(text)` of R12, R107 (92_eei_decisions.md D9). -/
inductive TraceAnswer where
  | ok
  | fail
deriving DecidableEq, Repr, Inhabited

/-- `TRACE_PAD`: the side the name is padded on and the character used (92_eei_decisions.md D17). -/
structure TracePad where
  onLeft : Bool
  fill : Char
deriving DecidableEq, Repr, Inhabited

/-- `ASM_CASE_MODE`: whether a tool folds capitals to lower case before matching, or matches them as they
stand (30_encoding.md R74, 92_eei_decisions.md D12). -/
inductive AsmCaseMode where
  | fold
  | faithful
deriving DecidableEq, Repr, Inhabited

/-- What a tool makes of a numeric operand that is not admitted (30_encoding.md R84). -/
inductive NumericReading where
  /-- It reads a number, of which the instruction uses these four bits. -/
  | value (v : Nibble)
  /-- It takes the line as an error. -/
  | error
  /-- Nothing is said of the tool: the line stays outside the admitted forms. -/
  | notAdmitted
deriving DecidableEq, Repr, Inhabited

/-- The parameters of an assembler: `ASM_CASE_MODE` (`none`: nothing is said of the tool) and
`ASM_NUMERIC_SYNTAX`, by the operand's text (00_scope.md R8; 92_eei_decisions.md D12, D13). -/
structure AsmTool where
  caseMode : Option AsmCaseMode
  numericSyntax : List Char → NumericReading

/-- The tool of which nothing is said: every line outside the admitted forms is refused
(93_implementation_defined.md I3, I4). -/
def AsmTool.admittedOnly : AsmTool where
  caseMode := none
  numericSyntax := fun _ => .notAdmitted

/-- What a loader makes of a hex image that is not admitted (70_reset_and_hazards.md R253). -/
inductive HexReading where
  /-- It fills the 16 ROM entries with these bytes. -/
  | filled (entries : Vector Byte 16)
  /-- It fails. -/
  | failed
  /-- Nothing is said of the loader: the image stays outside the admitted form. -/
  | notAdmitted
deriving DecidableEq, Repr, Inhabited

/-- `HEX_LOADER_MODE`: what a loader does with an image outside the admitted form, by its text (00_scope.md
R8; 92_eei_decisions.md D18). -/
abbrev HexLoaderMode := List Char → HexReading

/-- The loader of which nothing is said (93_implementation_defined.md I13). -/
def HexLoaderMode.admittedOnly : HexLoaderMode := fun _ => .notAdmitted

/-- FREE VALUE. The answer to the input read with number `n` (from 0) when the answers listed in the
state are used up: any 4-bit value or `Exhausted` (93_implementation_defined.md I9; log entry 4). -/
opaque Config.laterInAnswer : Nat → InAnswer

/-- FREE VALUE. The answer to the trace write with number `n` (from 0) when the answers listed in the
state are used up (93_implementation_defined.md I10; log entry 4). -/
opaque Config.laterTraceAnswer : Nat → TraceAnswer

/-- OPEN `HOST_IN_TOKEN_MAP`: the four bits the host makes of an input token's text
(92_eei_decisions.md D7; log entry 23). -/
opaque Config.hostInTokenMap : List Char → Nibble

/-- OPEN `TRACE_NAME_TABLE`: the name of an opcode in the trace line (92_eei_decisions.md D17). -/
opaque Config.traceName : Nibble → List Char

/-- OPEN `TRACE_PLACEHOLDER`: what stands for the name of a no-op opcode (92_eei_decisions.md D17). -/
opaque Config.tracePlaceholder : List Char

/-- OPEN `TRACE_PAD` (92_eei_decisions.md D17). -/
opaque Config.tracePad : TracePad

/-- OPEN `TRACE_HEX_CASE`: whether hex digits are capitals (92_eei_decisions.md D17). -/
opaque Config.traceHexCapitals : Bool

/-- OPEN `TRACE_EOL`: what ends a trace line (92_eei_decisions.md D17). -/
opaque Config.traceEol : List Char

end Sys2Proof
end

