-- ==== Sys2Proof/Syntax.lean ====
section
/-! DEFINITION. The instructions of the TD4 core as data: one constructor per row of
spec/opcode_table.json, in the table's order (spec 30_encoding.md R63). -/

namespace Sys2Proof

/-- One instruction: one constructor per opcode value (R63). EVERY constructor carries bits 3:0 of its
byte. Seven opcodes use them as the immediate `imm`; for the other nine they are `ign`, ignored by
execution and shown only in the trace line's `IM:` field (R64; log entry 16). -/
inductive Instr where
  /-- 0x0 `ADD A, imm` (41_alu.md R120). -/
  | addA (imm : Nibble)
  /-- 0x1 `MOV A, B` (42_move.md R130). -/
  | movAB (ign : Nibble)
  /-- 0x2 `IN A` (43_io.md R140). -/
  | inA (ign : Nibble)
  /-- 0x3 `MOV A, imm` (42_move.md R131). -/
  | movAImm (imm : Nibble)
  /-- 0x4 `MOV B, A` (42_move.md R132). -/
  | movBA (ign : Nibble)
  /-- 0x5 `MOV B, imm` (42_move.md R133). -/
  | movBImm (imm : Nibble)
  /-- 0x6 `ADD B, imm` (41_alu.md R121). -/
  | addB (imm : Nibble)
  /-- 0x7 `IN B` (43_io.md R141). -/
  | inB (ign : Nibble)
  /-- 0x8 `NOP8` (45_reserved.md R160). -/
  | nop8 (ign : Nibble)
  /-- 0x9 `OUT B` (43_io.md R142). -/
  | outB (ign : Nibble)
  /-- 0xA `OUT imm` (43_io.md R143). -/
  | outImm (imm : Nibble)
  /-- 0xB `NOPB` (45_reserved.md R161). -/
  | nopB (ign : Nibble)
  /-- 0xC `NOPC` (45_reserved.md R162). -/
  | nopC (ign : Nibble)
  /-- 0xD `NOPD` (45_reserved.md R163). -/
  | nopD (ign : Nibble)
  /-- 0xE `JC imm` (44_control.md R150). -/
  | jc (imm : Nibble)
  /-- 0xF `JMP imm` (44_control.md R151). -/
  | jmp (imm : Nibble)
deriving DecidableEq, Repr

end Sys2Proof
end

