-- ==== Sys2Proof/Machine/State.lean ====
section
/-! DEFINITION. The state of the TD4 core and its reset value (spec 10_state.md R20 to R33,
70_reset_and_hazards.md R250). -/

namespace Sys2Proof.Machine

/-- The reason of an abort: the two named values of 60_exceptions.md R201 (92_eei_decisions.md D5). -/
inductive AbortReason where
  | inputExhausted
  | outputFailure
deriving DecidableEq, Repr

/-- The run status (10_state.md R30). -/
inductive RunStatus where
  | running
  | aborted (reason : AbortReason)
deriving DecidableEq, Repr

/-- The fields of one trace line, which is compared by its fields (40_execution_cycle.md R107;
92_eei_decisions.md D17). -/
structure TraceLine where
  pc : Nibble
  op : Nibble
  imm : Nibble
  a : Nibble
  b : Nibble
  out : Nibble
  carry : Bool
deriving DecidableEq, Repr

/-- What one trace write carries: the prompt `IN: ` (R103) or the step's line (R107). -/
inductive TraceText where
  | prompt
  | line (l : TraceLine)
deriving DecidableEq, Repr

/-- One trace write made and the host's answer to it (log entry 5). -/
structure TraceRecord where
  text : TraceText
  answer : TraceAnswer
deriving DecidableEq, Repr

/-- The program ROM: the listed entries, addresses rising; an unlisted entry reads 0x00 (10_state.md
R29, R33; log entry 6). `Memory.wf` is its canonical form. -/
abbrev Memory := List Host.Cell

/-- The state: the Machine State of 10_state.md R20, the run status of R30, the run configuration of
60_exceptions.md R208, and the model's own record of the two host channels (log entries 4 and 5). -/
structure State where
  /-- General register `a` (R22). -/
  a : Nibble
  /-- General register `b` (R23). -/
  b : Nibble
  /-- The input latch, the spec's `in` (R27). -/
  inLatch : Nibble
  /-- The output latch, which drives the output port (R28). -/
  out : Nibble
  /-- The carry flag (R26). -/
  carry : Bool
  /-- The program counter (R25). -/
  pc : Nibble
  /-- The ROM, which the host loads (R29). -/
  rom : Memory
  /-- The run status (R30). -/
  status : RunStatus
  /-- `INPUT_ATTACHED` (R208; 92_eei_decisions.md D8). -/
  inputAttached : Bool
  /-- `TRACE_ATTACHED` (R208; 92_eei_decisions.md D8). -/
  traceAttached : Bool
  /-- The host's coming answers to input reads, next first (92_eei_decisions.md D7). -/
  inAnswers : List InAnswer
  /-- How many input reads have been answered. -/
  inReads : Nat
  /-- `TRACE_ANSWERS`: the host's coming answers to trace writes, next first (D9). -/
  traceAnswers : List TraceAnswer
  /-- Every trace write made so far, oldest first. -/
  traceLog : List TraceRecord
deriving DecidableEq, Repr

/-- What stops the machine with a fault: NOTHING. The core raises no exception and has no trap
(60_exceptions.md R200), so this type has no constructor. An abort is no fault here: it is a next state
whose status is `aborted` (40_execution_cycle.md R109; log entry 1). -/
inductive Fault
deriving DecidableEq, Repr

/-- Why a step is refused. -/
inductive Refusal where
  /-- Raised only by an arm of `exec` whose instruction has no meaning yet; no arm is such a one. Safe:
  the run ends. -/
  | notModelled (mnemonic : String)
  /-- Raised by every meaning on a state whose status is `aborted`: the core takes no further step until
  reset (40_execution_cycle.md R110; 93_implementation_defined.md I15; log entry 2). Safe: the state
  stays as the abort left it. -/
  | stepAfterAbort (reason : AbortReason)
deriving DecidableEq, Repr

/-- The machine right after reset with nothing loaded: every register, flag and latch 0, status
`Running` (70_reset_and_hazards.md R250), no ROM entry filled (R33, R251). The channels' fields are the
model's own choice: nothing attached, no answers listed, nothing read or written (log entries 3 to 5). -/
def State.reset : State where
  a := 0
  b := 0
  inLatch := 0
  out := 0
  carry := false
  pc := 0
  rom := []
  status := .running
  inputAttached := false
  traceAttached := false
  inAnswers := []
  inReads := 0
  traceAnswers := []
  traceLog := []

end Sys2Proof.Machine
end

