-- ==== Sys2Proof/Machine/Flags.lean ====
section
/-! DEFINITION. The adder and the carry flag's computation (spec 40_execution_cycle.md R105; 41_alu.md
R122). -/

namespace Sys2Proof.Machine

/-- `sum <- zext_5(x) + zext_5(imm)` (R105). -/
def aluSum (x imm : Nibble) : BitVec 5 := x.setWidth 5 + imm.setWidth 5

/-- `result = sum[3:0]` (R105). -/
def aluResult (x imm : Nibble) : Nibble := (aluSum x imm).setWidth 4

/-- `cout = sum[4]`, the new `carry` (R105, 10_state.md R26). -/
def aluCarry (x imm : Nibble) : Bool := (aluSum x imm).getLsbD 4

end Sys2Proof.Machine
end

