-- ==== Sys2Proof/WellFormed.lean ====
section
/-! DEFINITION. What the spec admits of the terms a run is built from. Every `Instr` is an instruction
of the core: a nibble cannot be out of range, and no encoding is illegal (spec 30_encoding.md R65), so
`Instr.wellFormed` refuses nothing. What can be ill formed is an instruction no assembler line emits, a
program of more than 16 instructions, and a ROM image of more than 16 bytes. -/

namespace Sys2Proof

/-- Every instruction is a legal one: "No encoding is illegal and none traps" (R65). -/
def Instr.wellFormed : Instr → Bool
  | .addA _ | .movAB _ | .inA _ | .movAImm _ | .movBA _ | .movBImm _ | .addB _ | .inB _ => true
  | .nop8 _ | .outB _ | .outImm _ | .nopB _ | .nopC _ | .nopD _ | .jc _ | .jmp _ => true

/-- An instruction some assembler line emits: one of the twelve named ones (R82), with 0 in an ignored
nibble (30_encoding.md R85). -/
def Instr.assemblable : Instr → Bool
  | .addA _ | .movAImm _ | .movBImm _ | .addB _ | .outImm _ | .jc _ | .jmp _ => true
  | .movAB n | .inA n | .movBA n | .inB n | .outB n => n == 0
  | .nop8 _ | .nopB _ | .nopC _ | .nopD _ => false

/-- A program that fits the ROM (30_encoding.md R86). -/
def Instr.programAssemblable (p : List Instr) : Bool :=
  decide (p.length ≤ 16) && p.all Instr.assemblable

/-- A ROM image: at most 16 bytes (70_reset_and_hazards.md R253). -/
def imageWellFormed (bytes : List Byte) : Bool :=
  decide (bytes.length ≤ 16)

end Sys2Proof
end

