-- ==== Sys2Proof/Decode.lean ====
section
/-! DEFINITION. Decoding and encoding: one 8-bit format, opcode in bits 7:4, immediate in bits 3:0
(spec 30_encoding.md R60 to R66). -/

namespace Sys2Proof

/-- `op = instr[7:4]` (R60). -/
def opField (b : Byte) : Nibble := b.extractLsb' 4 4

/-- `imm = instr[3:0]` (R60). -/
def immField (b : Byte) : Nibble := b.extractLsb' 0 4

/-- The instruction a byte stands for: total, since each of the 256 bytes decodes to exactly one row of
R63 (R65). -/
def decode (b : Byte) : Instr :=
  let imm := immField b
  match (opField b).toNat with
  | 0x0 => .addA imm
  | 0x1 => .movAB imm
  | 0x2 => .inA imm
  | 0x3 => .movAImm imm
  | 0x4 => .movBA imm
  | 0x5 => .movBImm imm
  | 0x6 => .addB imm
  | 0x7 => .inB imm
  | 0x8 => .nop8 imm
  | 0x9 => .outB imm
  | 0xA => .outImm imm
  | 0xB => .nopB imm
  | 0xC => .nopC imm
  | 0xD => .nopD imm
  | 0xE => .jc imm
  | _ => .jmp imm -- 0xF: the only value of four bits that is left

/-- Why a list of bytes is not one instruction: every instruction is one byte (R66). -/
inductive DecodeError where
  /-- There is no byte. -/
  | noByte
  /-- There is more than one byte. -/
  | moreThanOneByte
deriving DecidableEq, Repr

/-- Decoding any bytes: exactly one byte is an instruction (R66). -/
def decodeBytes : List Byte → Except DecodeError Instr
  | [] => .error .noByte
  | [b] => .ok (decode b)
  | _ :: _ :: _ => .error .moreThanOneByte

/-- The `n` bytes of `w`, the least significant first: the order in which the host numbers the bits of
an instruction. -/
def layBytes : Nat → Nat → List Byte
  | 0, _ => []
  | n + 1, w => BitVec.ofNat 8 w :: layBytes n (w / 256)

/-- The instruction the decoder reads from `nbits` bits numbered as spec/opcode_table.json numbers
them; `none` where the decoder refuses. -/
def decodeTableWord (nbits w : Nat) : Option Instr :=
  match decodeBytes (layBytes (max 1 ((nbits + 7) / 8)) (w % 2 ^ nbits)) with
  | .ok i => some i
  | .error _ => none

/-- The opcode of an instruction: the `op` column of R63. -/
def Instr.opcode : Instr → Nibble
  | .addA _ => 0x0
  | .movAB _ => 0x1
  | .inA _ => 0x2
  | .movAImm _ => 0x3
  | .movBA _ => 0x4
  | .movBImm _ => 0x5
  | .addB _ => 0x6
  | .inB _ => 0x7
  | .nop8 _ => 0x8
  | .outB _ => 0x9
  | .outImm _ => 0xA
  | .nopB _ => 0xB
  | .nopC _ => 0xC
  | .nopD _ => 0xD
  | .jc _ => 0xE
  | .jmp _ => 0xF

/-- Bits 3:0 of an instruction, used or ignored (R60, R64). -/
def Instr.lowNibble : Instr → Nibble
  | .addA n | .movAB n | .inA n | .movAImm n | .movBA n | .movBImm n | .addB n | .inB n => n
  | .nop8 n | .outB n | .outImm n | .nopB n | .nopC n | .nopD n | .jc n | .jmp n => n

/-- The byte of an instruction, `{op, imm}` (30_encoding.md R60, R85). -/
def encode (i : Instr) : Byte := i.opcode ++ i.lowNibble

/-- Whether execution ignores bits 3:0: opcodes 1, 2, 4, 7, 8, 9, B, C and D (R64). -/
def Instr.ignoresNibble (i : Instr) : Bool :=
  [0x1, 0x2, 0x4, 0x7, 0x8, 0x9, 0xB, 0xC, 0xD].contains i.opcode.toNat

end Sys2Proof
end

