-- ==== Sys2Proof/Machine/Ops.lean ====
section
/-! DEFINITION. The operations every meaning shares: the ROM, the register updates, the two host
channels, the abort, and the phases of a step in their order (spec 20_memory.md, 40_execution_cycle.md). -/

namespace Sys2Proof.Machine

/-! ### The ROM -/

/-- What an entry that nothing has filled reads as: 0x00 (10_state.md R33, 70_reset_and_hazards.md R251). -/
def unfilledByte : Byte := 0x00

/-- The byte listed at `addr`, or the unfilled byte. -/
def Memory.lookup : Memory → Nat → Byte
  | [], _ => unfilledByte
  | (k, v) :: rest, addr => if k = addr then v else Memory.lookup rest addr

/-- `MemRead(addr, 1) = rom[addr]`, the ROM address mux (00_scope.md R12, 20_memory.md R42): every
address of four bits exists. -/
def Memory.read (m : Memory) (addr : Nibble) : Byte := Memory.lookup m addr.toNat

/-- The memory with `v` at `addr`, in canonical form: an entry equal to the unfilled byte is not listed. -/
def Memory.store : Memory → Nat → Byte → Memory
  | [], addr, v => if v = unfilledByte then [] else [(addr, v)]
  | (k, w) :: rest, addr, v =>
    if addr < k then
      if v = unfilledByte then (k, w) :: rest else (addr, v) :: (k, w) :: rest
    else if addr = k then
      if v = unfilledByte then rest else (addr, v) :: rest
    else (k, w) :: Memory.store rest addr v

/-- The host's write of one ROM entry. No instruction uses it (10_state.md R29, 20_memory.md R53). -/
def Memory.write (m : Memory) (addr : Nibble) (v : Byte) : Memory := Memory.store m addr.toNat v

/-- The canonical form from address `low` on: addresses rising and below 16, no unfilled byte listed. -/
def Memory.wfFrom : Nat → Memory → Bool
  | _, [] => true
  | low, (k, v) :: rest =>
    decide (low ≤ k) && decide (k < 16) && decide (v ≠ unfilledByte) && Memory.wfFrom (k + 1) rest

/-- The canonical form of the ROM: equal contents are equal lists. -/
def Memory.wf (m : Memory) : Bool := Memory.wfFrom 0 m

/-- Phase 1, the fetch: `instr <- MemRead(pc, 1)` (20_memory.md R42, 40_execution_cycle.md R101). -/
def fetch (s : State) : Byte := Memory.read s.rom s.pc

/-! ### Updates of one register -/

def State.setA (v : Nibble) (s : State) : State := { s with a := v }
def State.setB (v : Nibble) (s : State) : State := { s with b := v }
def State.setInLatch (v : Nibble) (s : State) : State := { s with inLatch := v }
def State.setOut (v : Nibble) (s : State) : State := { s with out := v }
def State.setCarry (v : Bool) (s : State) : State := { s with carry := v }
def State.setPc (v : Nibble) (s : State) : State := { s with pc := v }
def State.setStatus (v : RunStatus) (s : State) : State := { s with status := v }

/-- The program-counter incrementer, `(pc + 1) mod 16` (40_execution_cycle.md R102). -/
def pcIncrement (pc : Nibble) : Nibble := pc + 1

/-! ### The host channels -/

/-- The host's answer to the input read that is `k` reads ahead: the listed one, or a free value
(92_eei_decisions.md D7; log entry 4). -/
def State.inAnswerAt (s : State) (k : Nat) : InAnswer :=
  match s.inAnswers[k]? with
  | some x => x
  | none => Config.laterInAnswer (s.inReads + k)

/-- The host's answer to the trace write that is `k` writes ahead: the listed one, or a free value
(92_eei_decisions.md D9; log entry 4). -/
def State.traceAnswerAt (s : State) (k : Nat) : TraceAnswer :=
  match s.traceAnswers[k]? with
  | some x => x
  | none => Config.laterTraceAnswer (s.traceLog.length + k)

/-- The state after one input read has been answered: that answer is used up (20_memory.md R47). -/
def State.useInAnswer (s : State) : State :=
  { s with inAnswers := s.inAnswers.tail, inReads := s.inReads + 1 }

/-- The state after one trace write has been answered: the answer is used up and the write recorded. -/
def State.recordTrace (t : TraceText) (s : State) : State :=
  { s with
    traceAnswers := s.traceAnswers.tail
    traceLog := s.traceLog ++ [{ text := t, answer := s.traceAnswerAt 0 }] }

/-- TAKING AN ABORT: the run status records the reason; nothing is rolled back and `pc` is not
committed (40_execution_cycle.md R109, 60_exceptions.md R204). The way back is the reset event,
`State.applyReset`. -/
def State.abort (r : AbortReason) (s : State) : State := s.setStatus (.aborted r)

/-- The reset event: the registers, flag and latches 0 and the status `Running`; the ROM and what the
host keeps are not changed (70_reset_and_hazards.md R250). The only way out of an abort (60_exceptions.md
R205). -/
def State.applyReset (s : State) : State :=
  { s with a := 0, b := 0, inLatch := 0, out := 0, carry := false, pc := 0, status := .running }

/-! ### The phases of a step -/

/-- How a phase ends: the step goes on, or it has aborted and no later phase runs (R109). -/
inductive PhaseEnd where
  | goOn (s : State)
  | stop (s : State)
deriving DecidableEq, Repr

/-- The next phase, run only where the step goes on. -/
def PhaseEnd.andThen (p : PhaseEnd) (f : State → PhaseEnd) : PhaseEnd :=
  match p with
  | .goOn s => f s
  | .stop s => .stop s

/-- The state a phase leaves, however it ends. -/
def PhaseEnd.state : PhaseEnd → State
  | .goOn s => s
  | .stop s => s

/-- `r <- TraceWrite(text)`, and `r = Fail` raises `Abort(OutputFailure)` (R103, R107). -/
def traceWrite (t : TraceText) (s : State) : PhaseEnd :=
  match s.traceAnswerAt 0 with
  | .ok => .goOn (s.recordTrace t)
  | .fail => .stop ((s.recordTrace t).abort .outputFailure)

/-- `v <- InRead()`: `Exhausted` raises `Abort(InputExhausted)` and leaves the latch, a value is latched
(R103; 92_eei_decisions.md D6). -/
def inputRead (s : State) : PhaseEnd :=
  match s.inAnswerAt 0 with
  | .exhausted => .stop (s.useInAnswer.abort .inputExhausted)
  | .value v => .goOn (s.useInAnswer.setInLatch v)

/-- Phase 2 without an input request: nothing happens (R103). -/
def noInputPhase (s : State) : PhaseEnd := .goOn s

/-- Phase 2 of `IN A` and `IN B`: only with an input stream attached; the prompt where a trace is
attached, then the read (R103, 60_exceptions.md R209). -/
def inputPhase (s : State) : PhaseEnd :=
  if s.inputAttached then
    (if s.traceAttached then traceWrite .prompt s else .goOn s).andThen inputRead
  else .goOn s

/-- Phase 4: `a <- a & 0xF; b <- b & 0xF`, which changes nothing on 4-bit registers (R106). -/
def normalize (s : State) : State := (s.setA (s.a &&& 0xF)).setB (s.b &&& 0xF)

/-- The trace line of a step of `i`, from the state after phases 3 and 4 (R107). -/
def traceLineOf (i : Instr) (s : State) : TraceLine :=
  { pc := s.pc, op := i.opcode, imm := i.lowNibble, a := s.a, b := s.b, out := s.out, carry := s.carry }

/-- Phase 5: with a trace attached, one line (R107). -/
def tracePhase (i : Instr) (s : State) : PhaseEnd :=
  if s.traceAttached then traceWrite (.line (traceLineOf i s)) s else .goOn s

/-- The next pc of a sequential instruction: what the incrementer made (R102). -/
def sequential (s : State) : Nibble := pcIncrement s.pc

/-- Phases 2 to 6 of a step of `i` (R111): `input` is its phase 2, `effect` its register writes in phase
3, `next` the next pc that phase 3 leaves, read from the state phase 2 left. -/
def phases (i : Instr) (input : State → PhaseEnd) (effect : State → State) (next : State → Nibble)
    (s : State) : State :=
  ((input s).andThen fun s2 =>
    (tracePhase i (normalize (effect s2))).andThen fun s5 => .goOn (s5.setPc (next s2))).state

/-- One step of `i` on a core whose status is `Running` (R100, R111); a core that has aborted takes no
step until reset (R110). -/
def runStep (i : Instr) (input : State → PhaseEnd) (effect : State → State) (next : State → Nibble)
    (s : State) : Host.Outcome State Fault Refusal :=
  match s.status with
  | .running => .next (phases i input effect next s)
  | .aborted r => .refused (.stepAfterAbort r)

/-- The state with the lowest byte of `w` (of its lowest `nbits` bits) at `pc`, on a core that takes a
step: what `State.withFetchWord` stores. -/
def placeAtPc (s : State) (nbits w : Nat) : State :=
  { s with status := .running, rom := Memory.write s.rom s.pc (BitVec.ofNat 8 (w % 2 ^ nbits)) }

end Sys2Proof.Machine
end

