-- ==== Sys2Proof/Machine/Operands.lean ====
section
/-! DEFINITION. The operands of the core: each opcode fixes its source and its destination (spec
30_encoding.md R61, R62, R67). -/

namespace Sys2Proof.Machine

/-- Where a loaded value comes from: the `source` column of R67, but for the adder. -/
inductive Source where
  | regA
  | regB
  | inLatch
  | imm (v : Nibble)
deriving DecidableEq, Repr

/-- The register a value is loaded into: the `dest` column of R67. -/
inductive Dest where
  | regA
  | regB
  | out
deriving DecidableEq, Repr

/-- The value of a source; an immediate is used exactly as its four bits stand (R61). -/
def Source.value : Source → State → Nibble
  | .regA, s => s.a
  | .regB, s => s.b
  | .inLatch, s => s.inLatch
  | .imm v, _ => v

/-- The state with `v` loaded into a destination. -/
def Dest.load : Dest → Nibble → State → State
  | .regA, v, s => s.setA v
  | .regB, v, s => s.setB v
  | .out, v, s => s.setOut v

/-- A move: the destination takes the source's value; nothing else is written (R104). -/
def move (d : Dest) (x : Source) (s : State) : State := d.load (x.value s) s

/-- An addition of the immediate to the register: sum and carry are written together (R105, R106). -/
def addTo (d : Dest) (x : Source) (imm : Nibble) (s : State) : State :=
  (d.load (aluResult (x.value s) imm) s).setCarry (aluCarry (x.value s) imm)

/-- No register write. -/
def nothing (s : State) : State := s

end Sys2Proof.Machine
end

