-- ==== Sys2Proof/Machine/Alu.lean ====
section
/-! DEFINITION. The arithmetic instructions (spec 41_alu.md). -/

namespace Sys2Proof.Machine

/-- `ADD A, imm` (R120). -/
def execAddA (imm : Nibble) (s : State) : Host.Outcome State Fault Refusal :=
  runStep (.addA imm) noInputPhase (addTo .regA .regA imm) sequential s

/-- `ADD B, imm` (R121). -/
def execAddB (imm : Nibble) (s : State) : Host.Outcome State Fault Refusal :=
  runStep (.addB imm) noInputPhase (addTo .regB .regB imm) sequential s

end Sys2Proof.Machine
end

