-- ==== Sys2Proof/Machine/InOut.lean ====
section
/-! DEFINITION. The input and output instructions (spec 43_io.md). -/

namespace Sys2Proof.Machine

/-- `IN A` (R140): with a stream attached the latch is read first; then `a <- in` either way. -/
def execInA (ign : Nibble) (s : State) : Host.Outcome State Fault Refusal :=
  runStep (.inA ign) inputPhase (move .regA .inLatch) sequential s

/-- `IN B` (R141). -/
def execInB (ign : Nibble) (s : State) : Host.Outcome State Fault Refusal :=
  runStep (.inB ign) inputPhase (move .regB .inLatch) sequential s

/-- `OUT B` (R142). -/
def execOutB (ign : Nibble) (s : State) : Host.Outcome State Fault Refusal :=
  runStep (.outB ign) noInputPhase (move .out .regB) sequential s

/-- `OUT imm` (R143). -/
def execOutImm (imm : Nibble) (s : State) : Host.Outcome State Fault Refusal :=
  runStep (.outImm imm) noInputPhase (move .out (.imm imm)) sequential s

end Sys2Proof.Machine
end

