-- ==== Sys2Proof/Machine/Jump.lean ====
section
/-! DEFINITION. The control transfers: the target is the absolute immediate (spec 44_control.md R152). -/

namespace Sys2Proof.Machine

/-- `JC imm` (R150): taken where `carry` is 1; the flag is not cleared. -/
def execJc (imm : Nibble) (s : State) : Host.Outcome State Fault Refusal :=
  runStep (.jc imm) noInputPhase nothing (fun t => if t.carry then imm else sequential t) s

/-- `JMP imm` (R151). -/
def execJmp (imm : Nibble) (s : State) : Host.Outcome State Fault Refusal :=
  runStep (.jmp imm) noInputPhase nothing (fun _ => imm) s

end Sys2Proof.Machine
end

