-- ==== Sys2Proof/Machine/Move.lean ====
section
/-! DEFINITION. The register moves (spec 42_move.md). -/

namespace Sys2Proof.Machine

/-- `MOV A, B` (R130). -/
def execMovAB (ign : Nibble) (s : State) : Host.Outcome State Fault Refusal :=
  runStep (.movAB ign) noInputPhase (move .regA .regB) sequential s

/-- `MOV A, imm` (R131). -/
def execMovAImm (imm : Nibble) (s : State) : Host.Outcome State Fault Refusal :=
  runStep (.movAImm imm) noInputPhase (move .regA (.imm imm)) sequential s

/-- `MOV B, A` (R132). -/
def execMovBA (ign : Nibble) (s : State) : Host.Outcome State Fault Refusal :=
  runStep (.movBA ign) noInputPhase (move .regB .regA) sequential s

/-- `MOV B, imm` (R133). -/
def execMovBImm (imm : Nibble) (s : State) : Host.Outcome State Fault Refusal :=
  runStep (.movBImm imm) noInputPhase (move .regB (.imm imm)) sequential s

end Sys2Proof.Machine
end

