-- ==== Sys2Proof/Machine/Nop.lean ====
section
/-! DEFINITION. The four reserved opcodes, each an exact no-op (spec 45_reserved.md). -/

namespace Sys2Proof.Machine

/-- `NOP8` (R160). -/
def execNop8 (ign : Nibble) (s : State) : Host.Outcome State Fault Refusal :=
  runStep (.nop8 ign) noInputPhase nothing sequential s

/-- `NOPB` (R161). -/
def execNopB (ign : Nibble) (s : State) : Host.Outcome State Fault Refusal :=
  runStep (.nopB ign) noInputPhase nothing sequential s

/-- `NOPC` (R162). -/
def execNopC (ign : Nibble) (s : State) : Host.Outcome State Fault Refusal :=
  runStep (.nopC ign) noInputPhase nothing sequential s

/-- `NOPD` (R163). -/
def execNopD (ign : Nibble) (s : State) : Host.Outcome State Fault Refusal :=
  runStep (.nopD ign) noInputPhase nothing sequential s

end Sys2Proof.Machine
end

