-- ==== Sys2Proof/Machine/Dispatch.lean ====
section
/-! DEFINITION. The dispatch: one arm per opcode, "opcode is the dispatch key" (spec
40_execution_cycle.md R104). -/

namespace Sys2Proof.Machine

/-- Phases 2 to 6 of a step whose fetched byte decodes to `i`. -/
def exec (i : Instr) (s : State) : Host.Outcome State Fault Refusal :=
  match i with
  | .addA imm => Sys2Proof.Machine.execAddA imm s
  | .movAB ign => Sys2Proof.Machine.execMovAB ign s
  | .inA ign => Sys2Proof.Machine.execInA ign s
  | .movAImm imm => Sys2Proof.Machine.execMovAImm imm s
  | .movBA ign => Sys2Proof.Machine.execMovBA ign s
  | .movBImm imm => Sys2Proof.Machine.execMovBImm imm s
  | .addB imm => Sys2Proof.Machine.execAddB imm s
  | .inB ign => Sys2Proof.Machine.execInB ign s
  | .nop8 ign => Sys2Proof.Machine.execNop8 ign s
  | .outB ign => Sys2Proof.Machine.execOutB ign s
  | .outImm imm => Sys2Proof.Machine.execOutImm imm s
  | .nopB ign => Sys2Proof.Machine.execNopB ign s
  | .nopC ign => Sys2Proof.Machine.execNopC ign s
  | .nopD ign => Sys2Proof.Machine.execNopD ign s
  | .jc imm => Sys2Proof.Machine.execJc imm s
  | .jmp imm => Sys2Proof.Machine.execJmp imm s

end Sys2Proof.Machine
end

