-- ==== Sys2Proof/Machine/Step.lean ====
section
/-! DEFINITION. One step of the core: fetch at `pc`, decode, execute (spec 40_execution_cycle.md R100,
R111). -/

namespace Sys2Proof.Machine

/-- One step: the byte the ROM address mux selects by `pc` is decoded afresh and executed (R101). -/
def step (s : State) : Host.Outcome State Fault Refusal :=
  exec (decode (fetch s)) s

/-- The state with the given byte stored where `step` fetches next, on a core that takes a step: it
stands for the host's loading of the ROM (log entry 7). -/
def State.withFetchWord (s : State) (nbits w : Nat) : State := placeAtPc s nbits w

end Sys2Proof.Machine
end

