-- ==== Sys2Proof/Machine/RomImage.lean ====
section
/-! DEFINITION. Loading and dumping the ROM: a list of at most 16 bytes, and the hex image text (spec
70_reset_and_hazards.md R251 to R253). -/

namespace Sys2Proof.Machine

/-- The listed entries of `bytes` placed from address `k` on. -/
def romFrom : Nat → List Byte → Memory
  | _, [] => []
  | k, b :: rest => if b = unfilledByte then romFrom (k + 1) rest else (k, b) :: romFrom (k + 1) rest

/-- The ROM of an image: byte `k` is ROM entry `k`, the remainder 0x00 (R252, R253); `none` for more than
16 bytes. -/
def loadImage (bytes : List Byte) : Option Memory :=
  if imageWellFormed bytes then some (romFrom 0 bytes) else none

/-- A text cut at every character that `sep` picks. -/
def splitAtChars (sep : Char → Bool) : List Char → List (List Char)
  | [] => [[]]
  | c :: cs =>
    match splitAtChars sep cs with
    | [] => [[c]]
    | w :: ws => if sep c then [] :: w :: ws else (c :: w) :: ws

/-- The non-empty pieces of a text cut at every character that `sep` picks. -/
def piecesOf (sep : Char → Bool) (text : List Char) : List (List Char) :=
  (splitAtChars sep text).filter fun w => !w.isEmpty

/-- A capital hex digit, as `%X` prints it (93_implementation_defined.md G2). -/
def capitalHexDigit (n : Nat) : Char := if n < 10 then Char.ofNat (48 + n) else Char.ofNat (55 + n)

/-- The value of a hex digit; letters of either case are hexadecimal digits (R253). -/
def hexDigitValue (c : Char) : Option Nat :=
  if '0' ≤ c ∧ c ≤ '9' then some (c.toNat - 48)
  else if 'A' ≤ c ∧ c ≤ 'F' then some (c.toNat - 55)
  else if 'a' ≤ c ∧ c ≤ 'f' then some (c.toNat - 87)
  else none

/-- The value of a string of hex digits read after `n`; `none` at any other character. -/
def hexFrom (n : Nat) : List Char → Option Nat
  | [] => some n
  | c :: cs =>
    match hexDigitValue c with
    | some d => hexFrom (16 * n + d) cs
    | none => none

/-- One token of a hex image: `0x` and hex digits of either case, of value 0 to 0xFF (R253,
92_eei_decisions.md D18; log entry 15). A token without `0x`, above 0xFF or malformed is outside the
admitted form (93_implementation_defined.md I13). -/
def hexToken : List Char → Option Byte
  | '0' :: 'x' :: d :: ds =>
    match hexFrom 0 (d :: ds) with
    | some n => if n < 256 then some (BitVec.ofNat 8 n) else none
    | none => none
  | _ => none

/-- The bytes of the tokens, if each is well formed. -/
def hexTokens : List (List Char) → Option (List Byte)
  | [] => some []
  | w :: ws =>
    match hexToken w, hexTokens ws with
    | some b, some bs => some (b :: bs)
    | _, _ => none

/-- What separates the tokens of a hex image: a comma or whitespace (R253). -/
def isHexSeparator (c : Char) : Bool := c == ',' || c.isWhitespace

/-- The tokens of a hex image text. -/
def hexTokenTexts (text : List Char) : List (List Char) := piecesOf isHexSeparator text

/-- The ROM of an admitted hex image, "a comma-or-whitespace separated sequence of up to 16 hexadecimal
byte tokens" (R253); `none` outside that form. -/
def admittedHexImage (text : List Char) : Option Memory :=
  match hexTokens (hexTokenTexts text) with
  | some bytes => loadImage bytes
  | none => none

/-- What a hex image gives. -/
inductive ImageResult where
  /-- A ROM. -/
  | loaded (rom : Memory)
  /-- The loader fails; only on an image outside the admitted form. -/
  | failed
  /-- The image is outside the admitted form and nothing is said of the loader (D18). -/
  | notAdmitted
deriving DecidableEq, Repr

/-- The ROM a loader makes of a hex image text: an admitted image is loaded by every loader, and any other
as its `HEX_LOADER_MODE` says (R253, 92_eei_decisions.md D18; log entry 24). -/
def loadHexTextWith (mode : HexLoaderMode) (text : List Char) : ImageResult :=
  match admittedHexImage text with
  | some m => .loaded m
  | none =>
    match mode text with
    | .filled entries => .loaded (romFrom 0 entries.toList)
    | .failed => .failed
    | .notAdmitted => .notAdmitted

/-- The ROM of a hex image text where nothing is said of the loader. -/
def loadHexText (text : List Char) : ImageResult := loadHexTextWith .admittedOnly text

/-- One line of the dump: the byte as `0x%X,` and a newline (R253, 93_implementation_defined.md G2). -/
def dumpByte (b : Byte) : List Char :=
  (if b.toNat < 16 then ['0', 'x', capitalHexDigit b.toNat]
    else ['0', 'x', capitalHexDigit (b.toNat / 16), capitalHexDigit (b.toNat % 16)]) ++ [',', '\n']

/-- The dump of a list of bytes, one line a byte. -/
def dumpBytes (bytes : List Byte) : List Char := bytes.flatMap dumpByte

/-- The 16 entries of a ROM in address order (20_memory.md R43). -/
def romBytes (m : Memory) : List Byte := (List.range 16).map (Memory.lookup m)

/-- What a dump gives: its text, or `OutputFailure` where the host fails the write (30_encoding.md R88;
log entry 20). -/
inductive DumpResult where
  | printed (text : List Char)
  | outputFailure
deriving DecidableEq, Repr

/-- The ROM dump (R253). -/
def dumpRom (m : Memory) (answer : TraceAnswer) : DumpResult :=
  match answer with
  | .ok => .printed (dumpBytes (romBytes m))
  | .fail => .outputFailure

end Sys2Proof.Machine
end

