-- ==== Sys2Proof/Machine/Assembler.lean ====
section
/-! DEFINITION. The assembler's language (spec 30_encoding.md R70 to R91): a total function from source
text to a Machine State, an error, or "not admitted". What a given tool does outside the admitted forms is
the argument `tool` (R8; `AsmTool`); `assemble` says nothing of the tool. No rule of the core depends on
it. -/

namespace Sys2Proof.Machine

/-- The points on which the spec admits no line (00_scope.md R8; 92_eei_decisions.md D12 to D15). -/
inductive AsmOpen where
  /-- `ASM_CASE_MODE`: a field holds a capital letter (R74). -/
  | asmCaseMode
  /-- `ASM_NUMERIC_SYNTAX`: a number that is not plain decimal digits, or a very large one (R84). -/
  | asmNumericSyntax
  /-- Two commas in a row, or a leading or trailing comma (R72). -/
  | separators
  /-- Four or more fields (R73). -/
  | fieldCount
  /-- A line of 255 or more characters (R89). -/
  | lineLength
deriving DecidableEq, Repr

/-- The kinds of SyntaxError (R88). -/
inductive SyntaxKind where
  /-- An unknown mnemonic, with the raw line text (R82). -/
  | unknownMnemonic (text : List Char)
  /-- A wrong operand count (R83). -/
  | operandCount
  /-- An invalid register operand (R76 to R79). -/
  | registerOperand
  /-- A numeric operand that the tool takes as an error: only outside the admitted spellings (R84). -/
  | numericOperand
deriving DecidableEq, Repr

/-- The assembler's errors, each with the physical line number (R70, R88). -/
inductive AsmError where
  | syntaxError (line : Nat) (kind : SyntaxKind)
  /-- `ProgramTooLarge`, of class CapacityError (R86). -/
  | capacityError (line : Nat)
deriving DecidableEq, Repr

/-- What assembling gives: a Machine State, one error and no partial output (R70, R88), or a line the
spec does not admit. -/
inductive AsmResult where
  | assembled (s : State)
  | failed (e : AsmError)
  | notAdmitted (line : Nat) (point : AsmOpen)
deriving DecidableEq, Repr

/-- What one line gives. -/
inductive LineResult where
  | skip
  | emit (i : Instr)
  | error (kind : SyntaxKind)
  | notAdmitted (point : AsmOpen)
deriving DecidableEq, Repr

/-- The six mnemonics (R82). -/
inductive Mnemonic where
  | add
  | mov
  | inp
  | out
  | jc
  | jmp
deriving DecidableEq, Repr

/-- The mnemonic a field spells, in lower case (R74, R82). -/
def mnemonicOf (w : List Char) : Option Mnemonic :=
  if w = ['a', 'd', 'd'] then some .add
  else if w = ['m', 'o', 'v'] then some .mov
  else if w = ['i', 'n'] then some .inp
  else if w = ['o', 'u', 't'] then some .out
  else if w = ['j', 'c'] then some .jc
  else if w = ['j', 'm', 'p'] then some .jmp
  else none

/-- A line up to its first `;` or `#` (R71). -/
def cutComment : List Char → List Char
  | [] => []
  | c :: cs => if c = ';' ∨ c = '#' then [] else c :: cutComment cs

/-- The fields of a line: separated by whitespace, or by one comma with or without whitespace around it
(R72); `none` for a leading, trailing or doubled comma. -/
def fieldsOf (line : List Char) : Option (List (List Char)) :=
  match (splitAtChars (· == ',') line).map (piecesOf Char.isWhitespace) with
  | [ws] => some ws
  | parts => if parts.any List.isEmpty then none else some parts.flatten

/-- The value of a string of decimal digits read after `n`; `none` at any other character. -/
def decimalFrom (n : Nat) : List Char → Option Nat
  | [] => some n
  | c :: cs => if c.isDigit then decimalFrom (10 * n + (c.toNat - 48)) cs else none

/-- The largest number the model admits in a source line: every C `int` holds it (log entry 13). -/
def asmNumberLimit : Nat := 32767

/-- A numeric operand: a non-empty string of decimal digits, in base 10 (R84). -/
def decimalValue (w : List Char) : Option Nat :=
  if w = [] then none
  else
    match decimalFrom 0 w with
    | some n => if n ≤ asmNumberLimit then some n else none
    | none => none

/-- An instruction with a numeric operand `N`: its immediate is `N & 0xF`; a spelling that is not admitted
is what the tool's `ASM_NUMERIC_SYNTAX` makes of it (R84). -/
def withNumber (tool : AsmTool) (w : List Char) (make : Nibble → Instr) : LineResult :=
  match decimalValue w with
  | some n => .emit (make (BitVec.ofNat 4 n))
  | none =>
    match tool.numericSyntax w with
    | .value v => .emit (make v)
    | .error => .error .numericOperand
    | .notAdmitted => .notAdmitted .asmNumericSyntax

/-- The operand forms of the six mnemonics (R76 to R81), and the operand counts (R83). -/
def asmOperands (tool : AsmTool) : Mnemonic → List (List Char) → LineResult
  | .add, [r, n] =>
    if r = ['a'] then withNumber tool n .addA
    else if r = ['b'] then withNumber tool n .addB
    else .error .registerOperand
  | .mov, [r, x] =>
    if r = ['a'] then (if x = ['b'] then .emit (.movAB 0) else withNumber tool x .movAImm)
    else if r = ['b'] then (if x = ['a'] then .emit (.movBA 0) else withNumber tool x .movBImm)
    else .error .registerOperand
  | .inp, [r] =>
    if r = ['a'] then .emit (.inA 0)
    else if r = ['b'] then .emit (.inB 0)
    else .error .registerOperand
  | .out, [x] =>
    if x = ['a'] then .error .registerOperand
    else if x = ['b'] then .emit (.outB 0)
    else withNumber tool x .outImm
  | .jc, [n] => withNumber tool n .jc
  | .jmp, [n] => withNumber tool n .jmp
  | .add, _ | .mov, _ | .inp, _ | .out, _ | .jc, _ | .jmp, _ => .error .operandCount

/-- A line's fields (R73, R75, R82); `raw` is the line itself, for the diagnostic. -/
def asmFields (tool : AsmTool) (raw : List Char) : List (List Char) → LineResult
  | [] => .skip
  | _ :: _ :: _ :: _ :: _ => .notAdmitted .fieldCount
  | m :: operands =>
    match mnemonicOf m with
    | some k => asmOperands tool k operands
    | none => .error (.unknownMnemonic raw)

/-- Whether a field holds a capital letter (R74). -/
def hasCapitals (fields : List (List Char)) : Bool := fields.any fun w => w.any Char.isUpper

/-- The fields as the tool matches them: capitals are folded or not as its `ASM_CASE_MODE` says, and
`none` where that is not said (R74). Without capitals both give the fields as they stand. -/
def caseFolded (tool : AsmTool) (fields : List (List Char)) : Option (List (List Char)) :=
  if hasCapitals fields then
    match tool.caseMode with
    | some .fold => some (fields.map fun w => w.map Char.toLower)
    | some .faithful => some fields
    | none => none
  else some fields

/-- One source line, without its terminator, read by a tool. -/
def asmLineWith (tool : AsmTool) (raw : List Char) : LineResult :=
  if 254 < raw.length then .notAdmitted .lineLength
  else
    match fieldsOf (cutComment raw) with
    | none => .notAdmitted .separators
    | some fields =>
      match caseFolded tool fields with
      | none => .notAdmitted .asmCaseMode
      | some fs => asmFields tool raw fs

/-- The lines from physical line `n` on, with `bytes` emitted so far: a single pass (R70). Each
instruction takes the next ROM slot, and the 17th is a CapacityError at its own line (R86); what is left
of the ROM stays 0x00 and every other element is 0 (R87). -/
def asmFromWith (tool : AsmTool) (n : Nat) (bytes : List Byte) : List (List Char) → AsmResult
  | [] => .assembled { State.reset with rom := romFrom 0 bytes }
  | line :: rest =>
    match asmLineWith tool line with
    | .skip => asmFromWith tool (n + 1) bytes rest
    | .error k => .failed (.syntaxError n k)
    | .notAdmitted p => .notAdmitted n p
    | .emit i =>
      if 16 ≤ bytes.length then .failed (.capacityError n)
      else asmFromWith tool (n + 1) (bytes ++ [encode i]) rest

/-- The physical lines of a source text: each ends at a newline (R70). -/
def sourceLines (text : List Char) : List (List Char) := splitAtChars (· == '\n') text

/-- Assembling a source text with a tool; lines are numbered from 1 (R70). -/
def assembleWith (tool : AsmTool) (text : List Char) : AsmResult :=
  asmFromWith tool 1 [] (sourceLines text)

/-- One source line where nothing is said of the tool: only admitted lines are read. -/
def asmLine (raw : List Char) : LineResult := asmLineWith .admittedOnly raw

/-- The lines from physical line `n` on where nothing is said of the tool. -/
def asmFrom (n : Nat) (bytes : List Byte) (lines : List (List Char)) : AsmResult :=
  asmFromWith .admittedOnly n bytes lines

/-- Assembling a source text where nothing is said of the tool. -/
def assemble (text : List Char) : AsmResult := assembleWith .admittedOnly text

/-- A nibble in decimal digits. -/
def decimalNibble (n : Nibble) : List Char :=
  if n.toNat < 10 then [Char.ofNat (48 + n.toNat)] else ['1', Char.ofNat (38 + n.toNat)]

/-- A source line for an instruction; empty for the four no-ops, which have no mnemonic (R82). -/
def sourceLine : Instr → List Char
  | .addA n => "add a, ".toList ++ decimalNibble n
  | .movAB _ => "mov a, b".toList
  | .inA _ => "in a".toList
  | .movAImm n => "mov a, ".toList ++ decimalNibble n
  | .movBA _ => "mov b, a".toList
  | .movBImm n => "mov b, ".toList ++ decimalNibble n
  | .addB n => "add b, ".toList ++ decimalNibble n
  | .inB _ => "in b".toList
  | .outB _ => "out b".toList
  | .outImm n => "out ".toList ++ decimalNibble n
  | .jc n => "jc ".toList ++ decimalNibble n
  | .jmp n => "jmp ".toList ++ decimalNibble n
  | .nop8 _ | .nopB _ | .nopC _ | .nopD _ => []

/-- A source text for a program, each line ended by a newline. -/
def sourceText (p : List Instr) : List Char := p.flatMap fun i => sourceLine i ++ ['\n']

end Sys2Proof.Machine
end

