-- ==== Sys2Proof/Machine/Control.lean ====
section
/-! DEFINITION. The decoder control table (spec 30_encoding.md R67): a second description of the core, in
hardware terms. `controlledStep` runs a step from the table alone; it is stated equal to `exec`. -/

namespace Sys2Proof.Machine

/-- The `source` column of R67. -/
inductive ControlSource where
  /-- No load. -/
  | none
  /-- Bits 3:0 of the adder's sum of a register and `imm`. -/
  | adder (x : Source)
  /-- A register or the input latch. -/
  | register (x : Source)
  /-- The immediate. -/
  | imm
deriving DecidableEq, Repr

/-- The `next pc` column of R67. -/
inductive ControlNext where
  | sequential
  | immIfCarry
  | imm
deriving DecidableEq, Repr

/-- One row of R67. -/
structure Control where
  dest : Option Dest
  source : ControlSource
  carryWe : Bool
  inReq : Bool
  next : ControlNext
deriving DecidableEq, Repr

/-- The table of R67, by opcode. -/
def controlOf (op : Nibble) : Control :=
  match op.toNat with
  | 0x0 => ⟨some .regA, .adder .regA, true, false, .sequential⟩
  | 0x1 => ⟨some .regA, .register .regB, false, false, .sequential⟩
  | 0x2 => ⟨some .regA, .register .inLatch, false, true, .sequential⟩
  | 0x3 => ⟨some .regA, .imm, false, false, .sequential⟩
  | 0x4 => ⟨some .regB, .register .regA, false, false, .sequential⟩
  | 0x5 => ⟨some .regB, .imm, false, false, .sequential⟩
  | 0x6 => ⟨some .regB, .adder .regB, true, false, .sequential⟩
  | 0x7 => ⟨some .regB, .register .inLatch, false, true, .sequential⟩
  | 0x8 => ⟨none, .none, false, false, .sequential⟩
  | 0x9 => ⟨some .out, .register .regB, false, false, .sequential⟩
  | 0xA => ⟨some .out, .imm, false, false, .sequential⟩
  | 0xB => ⟨none, .none, false, false, .sequential⟩
  | 0xC => ⟨none, .none, false, false, .sequential⟩
  | 0xD => ⟨none, .none, false, false, .sequential⟩
  | 0xE => ⟨none, .none, false, false, .immIfCarry⟩
  | _ => ⟨none, .none, false, false, .imm⟩ -- 0xF

/-- The value on the load bus; 0 where nothing is loaded. -/
def ControlSource.value (x : ControlSource) (imm : Nibble) (s : State) : Nibble :=
  match x with
  | .none => 0
  | .adder r => aluResult (r.value s) imm
  | .register r => r.value s
  | .imm => imm

/-- The adder's carry out; it is 0 where the adder is not used. -/
def ControlSource.carry (x : ControlSource) (imm : Nibble) (s : State) : Bool :=
  match x with
  | .adder r => aluCarry (r.value s) imm
  | .none | .register _ | .imm => false

/-- Phase 3 under a row's controls: at most one register is loaded, and `carry` where it is enabled. -/
def Control.effect (c : Control) (imm : Nibble) (s : State) : State :=
  let loaded := match c.dest with
    | some d => d.load (c.source.value imm s) s
    | none => s
  if c.carryWe then loaded.setCarry (c.source.carry imm s) else loaded

/-- The next pc under a row's controls. -/
def Control.nextPc (c : Control) (imm : Nibble) (s : State) : Nibble :=
  match c.next with
  | .sequential => sequential s
  | .immIfCarry => if s.carry then imm else sequential s
  | .imm => imm

/-- A step of the byte `b` run from the control table (R67). -/
def controlledStep (b : Byte) (s : State) : Host.Outcome State Fault Refusal :=
  let c := controlOf (opField b)
  let imm := immField b
  runStep (decode b) (if c.inReq then inputPhase else noInputPhase) (c.effect imm) (c.nextPc imm) s

end Sys2Proof.Machine
end

