-- ==== Sys2Proof/Machine/HostPort.lean ====
section
/-! DEFINITION. What the host can do to the core between steps, and what it can see (spec
60_exceptions.md R208, R213; 70_reset_and_hazards.md R250 to R254). No step does any of this. -/

namespace Sys2Proof.Machine

/-- The output port: the value of `out`, at all times (43_io.md R144). -/
def State.outputPort (s : State) : Nibble := s.out

/-- The run-status port (R208). -/
def State.statusPort (s : State) : RunStatus := s.status

/-- The ROM address mux select: it equals `pc` (R208). -/
def State.romSelect (s : State) : Nibble := s.pc

/-- The host loads the ROM: all 16 entries, those the image does not give being 0x00 (R251); `none` for
an image of more than 16 bytes. -/
def State.loadRom (image : List Byte) (s : State) : Option State :=
  (loadImage image).map fun m => { s with rom := m }

/-- The host attaches or detaches the streams of a run, each with the answers it has ready (R213,
92_eei_decisions.md D7 to D9). -/
def State.attach (input trace : Bool) (ins : List InAnswer) (traces : List TraceAnswer) (s : State) : State :=
  { s with inputAttached := input, traceAttached := trace, inAnswers := ins, traceAnswers := traces }

/-- The answers an input stream of tokens gives: one value a token, then `Exhausted` (R209, "Reading
fewer than one token is a failure" R103; log entry 23). -/
def inAnswersOfTokens (tokens : List (List Char)) : List InAnswer :=
  tokens.map (fun w => InAnswer.value (Config.hostInTokenMap w)) ++ [.exhausted]

/-- The host starts a run: load the ROM, choose the streams, reset (R254). Doing the three at once keeps
ROM and configuration constant in a run (92_eei_decisions.md D8, D10; log entry 18). -/
def State.startRun (image : List Byte) (input trace : Bool) (ins : List InAnswer)
    (traces : List TraceAnswer) (s : State) : Option State :=
  (s.loadRom image).map fun t => (t.attach input trace ins traces).applyReset

end Sys2Proof.Machine
end

