-- ==== Sys2Proof/Machine/TraceText.lean ====
section
/-! DEFINITION. The text of a trace write (spec 40_execution_cycle.md R103, R107; 60_exceptions.md R209,
R210). What the spec leaves open around the fields is a constant of Config with no body
(92_eei_decisions.md D17; log entry 10). -/

namespace Sys2Proof.Machine

/-- One hex digit; the case of the letters is `TRACE_HEX_CASE`. -/
def hexDigit (n : Nibble) : Char :=
  if n.toNat < 10 then Char.ofNat (48 + n.toNat)
  else if Config.traceHexCapitals then Char.ofNat (55 + n.toNat)
  else Char.ofNat (87 + n.toNat)

/-- The name of an opcode; a no-op opcode shows the placeholder (R107, 92_eei_decisions.md D23). -/
def opcodeName (op : Nibble) : List Char :=
  if op ∈ [0x8#4, 0xB#4, 0xC#4, 0xD#4] then Config.tracePlaceholder else Config.traceName op

/-- A name padded to 8 characters; the side and the character are `TRACE_PAD`. -/
def padName (name : List Char) : List Char :=
  let fill := List.replicate (8 - name.length) Config.tracePad.fill
  if Config.tracePad.onLeft then fill ++ name else name ++ fill

/-- `PC:<hex> <name padded to 8 chars> IM:<hex> A:<hex> B:<hex> OUT:<hex> CARRY:<hex>` (R107, R210). -/
def TraceLine.render (l : TraceLine) : List Char :=
  "PC:".toList ++ [hexDigit l.pc] ++ " ".toList ++ padName (opcodeName l.op)
    ++ " IM:".toList ++ [hexDigit l.imm] ++ " A:".toList ++ [hexDigit l.a]
    ++ " B:".toList ++ [hexDigit l.b] ++ " OUT:".toList ++ [hexDigit l.out]
    ++ " CARRY:".toList ++ [hexDigit (if l.carry then 1 else 0)] ++ Config.traceEol

/-- The text of a trace write: the prompt is the literal `IN: ` (R103, R209). -/
def TraceText.render : TraceText → List Char
  | .prompt => "IN: ".toList
  | .line l => l.render

end Sys2Proof.Machine
end

