-- ==== Sys2Proof/Safety.lean ====
section
/-! DEFINITION. The terms the claims are stated in: what of a state is compared, what no instruction
touches, and what every step keeps. -/

namespace Sys2Proof

/-- `IN A` or `IN B` (43_io.md R140, R141). -/
def Instr.isIn : Instr → Bool
  | .inA _ | .inB _ => true
  | .addA _ | .movAB _ | .movAImm _ | .movBA _ | .movBImm _ | .addB _ | .nop8 _ | .outB _ => false
  | .outImm _ | .nopB _ | .nopC _ | .nopD _ | .jc _ | .jmp _ => false

end Sys2Proof

namespace Sys2Proof.Machine

/-- What 95_test_vectors.md writes a state as: `a b in out carry pc` and the run status. -/
structure View where
  a : Nibble
  b : Nibble
  inLatch : Nibble
  out : Nibble
  carry : Bool
  pc : Nibble
  status : RunStatus
deriving DecidableEq, Repr

/-- The registers, latches, flag, pc and status of a state. -/
def State.view (s : State) : View :=
  { a := s.a, b := s.b, inLatch := s.inLatch, out := s.out, carry := s.carry, pc := s.pc,
    status := s.status }

/-- `(pc + 1) mod 16` (10_state.md R25, 40_execution_cycle.md R102). -/
def addressAfter (pc : Nibble) : Nibble := BitVec.ofNat 4 ((pc.toNat + 1) % 16)

/-- Every ROM byte reads as before, and the run configuration is as before (20_memory.md R53). -/
def KeepsRomAndConfig (s t : State) : Prop :=
  (∀ addr : Nibble, Memory.read t.rom addr = Memory.read s.rom addr) ∧
  t.inputAttached = s.inputAttached ∧ t.traceAttached = s.traceAttached

/-- No input was asked for (20_memory.md R47). -/
def AsksNoInput (s t : State) : Prop :=
  t.inAnswers = s.inAnswers ∧ t.inReads = s.inReads

/-- One input read was answered, and that answer is used up (20_memory.md R47). -/
def AsksOneInput (s t : State) : Prop :=
  t.inAnswers = s.inAnswers.tail ∧ t.inReads = s.inReads + 1

/-- The pc a completed step of `i` commits (10_state.md R25). -/
def committedPc (i : Instr) (s : State) : Nibble :=
  match i with
  | .jmp imm => imm
  | .jc imm => if s.carry = true then imm else addressAfter s.pc
  | .addA _ | .movAB _ | .inA _ | .movAImm _ | .movBA _ | .movBImm _ | .addB _ | .inB _ => addressAfter s.pc
  | .nop8 _ | .outB _ | .outImm _ | .nopB _ | .nopC _ | .nopD _ => addressAfter s.pc

/-- Phase 2 of an `IN` step from `s` goes on to phase 3: no read is made, or the prompt is accepted and a
value is read (40_execution_cycle.md R103). -/
def InputPhaseGoesOn (s : State) : Prop :=
  s.inputAttached = true →
    (s.traceAttached = true → s.traceAnswerAt 0 = .ok) ∧ ∃ v, s.inAnswerAt 0 = .value v

/-- A trace record with the `IM:` field of its line put to 0. -/
def TraceRecord.withoutIm (r : TraceRecord) : TraceRecord :=
  match r.text with
  | .prompt => r
  | .line l => { r with text := .line { l with imm := 0 } }

/-- A state with the `IM:` field of every trace line put to 0. -/
def State.withoutIm (s : State) : State :=
  { s with traceLog := s.traceLog.map TraceRecord.withoutIm }

/-- An outcome with its next state seen through `f`. -/
def mapNext (f : State → State) :
    Host.Outcome State Fault Refusal → Host.Outcome State Fault Refusal
  | .next s => .next (f s)
  | .fault r => .fault r
  | .refused r => .refused r

/-- THE INVARIANT every step keeps: the ROM is in canonical form; an abort for want of input stands at
an `IN` with an input stream attached (60_exceptions.md R201); an abort for a failed trace write has a
trace attached, and the last trace write is the one that failed (R201). -/
def State.Inv (s : State) : Prop :=
  Memory.wf s.rom = true ∧
  (s.status = .aborted .inputExhausted →
    s.inputAttached = true ∧ Instr.isIn (decode (fetch s)) = true) ∧
  (s.status = .aborted .outputFailure →
    s.traceAttached = true ∧ s.traceLog.getLast?.map TraceRecord.answer = some .fail)

/-- A string of whitespace, the empty one too (30_encoding.md R72). -/
def isBlank (w : List Char) : Bool := w.all Char.isWhitespace

/-- What may stand between two fields of a source line: whitespace, or one comma with or without
whitespace around it (30_encoding.md R72). -/
def IsFieldGap (gap : List Char) : Prop :=
  (gap ≠ [] ∧ isBlank gap = true) ∨
  ∃ before after, isBlank before = true ∧ isBlank after = true ∧ gap = before ++ ',' :: after

/-- The instructions that the lines of a source text emit, in order. -/
def emittedBy (lines : List (List Char)) : List Instr :=
  lines.filterMap fun l =>
    match asmLine l with
    | .emit i => some i
    | .skip | .error _ | .notAdmitted _ => none

end Sys2Proof.Machine
end

