-- ==== Sys2Proof/Certificates/Slice0/Obligations.lean ====
section
/-! DEFINITION. The statements for the provers, from the numbered rules of the spec. A statement about a
running core says for its state and operands alone when the instruction completes; a free value (an answer
past the listed ones) is covered whatever it is. -/

open Sys2Proof Sys2Proof.Machine

/-- O1. Encoding and decoding are inverse to each other (R60, R65). -/
def Obligations.EncodeAndDecodeAreInverse : Prop :=
  ∀ (i : Instr) (b : Byte),
    (encode i = b ↔ decode b = i) ∧
    (encode i).extractLsb' 4 4 = i.opcode ∧ (encode i).extractLsb' 0 4 = i.lowNibble

/-- O2. A sanity statement: one byte of each opcode decodes to its row of R63. -/
def Obligations.SampleWordsDecode : Prop :=
  decode 0x08 = .addA 8 ∧ decode 0x1F = .movAB 0xF ∧ decode 0x20 = .inA 0 ∧ decode 0x37 = .movAImm 7 ∧
  decode 0x4A = .movBA 0xA ∧ decode 0x55 = .movBImm 5 ∧ decode 0x63 = .addB 3 ∧ decode 0x72 = .inB 2 ∧
  decode 0x8C = .nop8 0xC ∧ decode 0x90 = .outB 0 ∧ decode 0xA5 = .outImm 5 ∧ decode 0xB3 = .nopB 3 ∧
  decode 0xCF = .nopC 0xF ∧ decode 0xD0 = .nopD 0 ∧ decode 0xE5 = .jc 5 ∧ decode 0xF2 = .jmp 2

/-- O3. The nine opcodes that ignore bits 3:0 (R64): the nibble reaches only the trace line's `IM:` field. -/
def Obligations.IgnoredNibbleExecutesAlike : Prop :=
  ∀ (i j : Instr) (s : State), i.opcode = j.opcode →
    i.opcode ∈ [0x1#4, 0x2#4, 0x4#4, 0x7#4, 0x8#4, 0x9#4, 0xB#4, 0xC#4, 0xD#4] →
    mapNext State.withoutIm (exec i s) = mapNext State.withoutIm (exec j s)

/-- O4. `ADD A, imm` (R120): encoding, completion with its whole effect and frame, and the abort in the trace phase. -/
def Obligations.AddAImmAddsAndSetsCarry : Prop :=
  ∀ (imm : Nibble) (s : State), s.status = .running →
    (∀ b : Byte, decode b = .addA imm ↔ b &&& 0xF0#8 = 0x00#8 ∧ b.extractLsb' 0 4 = imm) ∧
    ((s.traceAttached = true → s.traceAnswerAt 0 = .ok) →
      ∃ t, exec (.addA imm) s = .next t ∧ KeepsRomAndConfig s t ∧ AsksNoInput s t ∧
        t.view = { s.view with
          a := BitVec.ofNat 4 ((s.a.toNat + imm.toNat) % 16)
          carry := decide (15 < s.a.toNat + imm.toNat)
          pc := addressAfter s.pc }) ∧
    (s.traceAttached = true → s.traceAnswerAt 0 = .fail →
      ∃ t, exec (.addA imm) s = .next t ∧ KeepsRomAndConfig s t ∧ AsksNoInput s t ∧
        t.view = { s.view with
          a := BitVec.ofNat 4 ((s.a.toNat + imm.toNat) % 16)
          carry := decide (15 < s.a.toNat + imm.toNat)
          status := .aborted .outputFailure })

/-- O5. `MOV A, B` (R130): encoding, completion with its whole effect and frame, and the abort in the trace phase. -/
def Obligations.MovABCopiesB : Prop :=
  ∀ (ign : Nibble) (s : State), s.status = .running →
    (∀ b : Byte, decode b = .movAB ign ↔ b &&& 0xF0#8 = 0x10#8 ∧ b.extractLsb' 0 4 = ign) ∧
    (asmLine "mov a, b".toList = .emit (.movAB 0) ∧ encode (.movAB 0) = 0x10#8) ∧
    ((s.traceAttached = true → s.traceAnswerAt 0 = .ok) →
      ∃ t, exec (.movAB ign) s = .next t ∧ KeepsRomAndConfig s t ∧ AsksNoInput s t ∧
        t.view = { s.view with a := s.b, pc := addressAfter s.pc }) ∧
    (s.traceAttached = true → s.traceAnswerAt 0 = .fail →
      ∃ t, exec (.movAB ign) s = .next t ∧ KeepsRomAndConfig s t ∧ AsksNoInput s t ∧
        t.view = { s.view with a := s.b, status := .aborted .outputFailure })

/-- O6. `MOV A, imm` (R131): encoding, completion with its whole effect and frame, and the abort in the trace phase. -/
def Obligations.MovAImmLoadsA : Prop :=
  ∀ (imm : Nibble) (s : State), s.status = .running →
    (∀ b : Byte, decode b = .movAImm imm ↔ b &&& 0xF0#8 = 0x30#8 ∧ b.extractLsb' 0 4 = imm) ∧
    ((s.traceAttached = true → s.traceAnswerAt 0 = .ok) →
      ∃ t, exec (.movAImm imm) s = .next t ∧ KeepsRomAndConfig s t ∧ AsksNoInput s t ∧
        t.view = { s.view with a := imm, pc := addressAfter s.pc }) ∧
    (s.traceAttached = true → s.traceAnswerAt 0 = .fail →
      ∃ t, exec (.movAImm imm) s = .next t ∧ KeepsRomAndConfig s t ∧ AsksNoInput s t ∧
        t.view = { s.view with a := imm, status := .aborted .outputFailure })

/-- O7. `MOV B, A` (R132): encoding, completion with its whole effect and frame, and the abort in the trace phase. -/
def Obligations.MovBACopiesA : Prop :=
  ∀ (ign : Nibble) (s : State), s.status = .running →
    (∀ b : Byte, decode b = .movBA ign ↔ b &&& 0xF0#8 = 0x40#8 ∧ b.extractLsb' 0 4 = ign) ∧
    (asmLine "mov b, a".toList = .emit (.movBA 0) ∧ encode (.movBA 0) = 0x40#8) ∧
    ((s.traceAttached = true → s.traceAnswerAt 0 = .ok) →
      ∃ t, exec (.movBA ign) s = .next t ∧ KeepsRomAndConfig s t ∧ AsksNoInput s t ∧
        t.view = { s.view with b := s.a, pc := addressAfter s.pc }) ∧
    (s.traceAttached = true → s.traceAnswerAt 0 = .fail →
      ∃ t, exec (.movBA ign) s = .next t ∧ KeepsRomAndConfig s t ∧ AsksNoInput s t ∧
        t.view = { s.view with b := s.a, status := .aborted .outputFailure })

/-- O8. `MOV B, imm` (R133): encoding, completion with its whole effect and frame, and the abort in the trace phase. -/
def Obligations.MovBImmLoadsB : Prop :=
  ∀ (imm : Nibble) (s : State), s.status = .running →
    (∀ b : Byte, decode b = .movBImm imm ↔ b &&& 0xF0#8 = 0x50#8 ∧ b.extractLsb' 0 4 = imm) ∧
    ((s.traceAttached = true → s.traceAnswerAt 0 = .ok) →
      ∃ t, exec (.movBImm imm) s = .next t ∧ KeepsRomAndConfig s t ∧ AsksNoInput s t ∧
        t.view = { s.view with b := imm, pc := addressAfter s.pc }) ∧
    (s.traceAttached = true → s.traceAnswerAt 0 = .fail →
      ∃ t, exec (.movBImm imm) s = .next t ∧ KeepsRomAndConfig s t ∧ AsksNoInput s t ∧
        t.view = { s.view with b := imm, status := .aborted .outputFailure })

/-- O9. `ADD B, imm` (R121): encoding, completion with its whole effect and frame, and the abort in the trace phase. -/
def Obligations.AddBImmAddsAndSetsCarry : Prop :=
  ∀ (imm : Nibble) (s : State), s.status = .running →
    (∀ b : Byte, decode b = .addB imm ↔ b &&& 0xF0#8 = 0x60#8 ∧ b.extractLsb' 0 4 = imm) ∧
    ((s.traceAttached = true → s.traceAnswerAt 0 = .ok) →
      ∃ t, exec (.addB imm) s = .next t ∧ KeepsRomAndConfig s t ∧ AsksNoInput s t ∧
        t.view = { s.view with
          b := BitVec.ofNat 4 ((s.b.toNat + imm.toNat) % 16)
          carry := decide (15 < s.b.toNat + imm.toNat)
          pc := addressAfter s.pc }) ∧
    (s.traceAttached = true → s.traceAnswerAt 0 = .fail →
      ∃ t, exec (.addB imm) s = .next t ∧ KeepsRomAndConfig s t ∧ AsksNoInput s t ∧
        t.view = { s.view with
          b := BitVec.ofNat 4 ((s.b.toNat + imm.toNat) % 16)
          carry := decide (15 < s.b.toNat + imm.toNat)
          status := .aborted .outputFailure })

/-- O10. `OUT B` (R142): encoding, completion with its whole effect and frame, and the abort in the trace phase. -/
def Obligations.OutBDrivesOutput : Prop :=
  ∀ (ign : Nibble) (s : State), s.status = .running →
    (∀ b : Byte, decode b = .outB ign ↔ b &&& 0xF0#8 = 0x90#8 ∧ b.extractLsb' 0 4 = ign) ∧
    (asmLine "out b".toList = .emit (.outB 0) ∧ encode (.outB 0) = 0x90#8) ∧
    ((s.traceAttached = true → s.traceAnswerAt 0 = .ok) →
      ∃ t, exec (.outB ign) s = .next t ∧ KeepsRomAndConfig s t ∧ AsksNoInput s t ∧
        t.view = { s.view with out := s.b, pc := addressAfter s.pc }) ∧
    (s.traceAttached = true → s.traceAnswerAt 0 = .fail →
      ∃ t, exec (.outB ign) s = .next t ∧ KeepsRomAndConfig s t ∧ AsksNoInput s t ∧
        t.view = { s.view with out := s.b, status := .aborted .outputFailure })

/-- O11. `OUT imm` (R143): encoding, completion with its whole effect and frame, and the abort in the trace phase. -/
def Obligations.OutImmDrivesOutput : Prop :=
  ∀ (imm : Nibble) (s : State), s.status = .running →
    (∀ b : Byte, decode b = .outImm imm ↔ b &&& 0xF0#8 = 0xA0#8 ∧ b.extractLsb' 0 4 = imm) ∧
    ((s.traceAttached = true → s.traceAnswerAt 0 = .ok) →
      ∃ t, exec (.outImm imm) s = .next t ∧ KeepsRomAndConfig s t ∧ AsksNoInput s t ∧
        t.view = { s.view with out := imm, pc := addressAfter s.pc }) ∧
    (s.traceAttached = true → s.traceAnswerAt 0 = .fail →
      ∃ t, exec (.outImm imm) s = .next t ∧ KeepsRomAndConfig s t ∧ AsksNoInput s t ∧
        t.view = { s.view with out := imm, status := .aborted .outputFailure })

/-- O12. `JC imm` (R150): encoding, completion with its whole effect and frame, and the abort in the trace phase. -/
def Obligations.JcJumpsExactlyOnCarry : Prop :=
  ∀ (imm : Nibble) (s : State), s.status = .running →
    (∀ b : Byte, decode b = .jc imm ↔ b &&& 0xF0#8 = 0xE0#8 ∧ b.extractLsb' 0 4 = imm) ∧
    ((s.traceAttached = true → s.traceAnswerAt 0 = .ok) →
      ∃ t, exec (.jc imm) s = .next t ∧ KeepsRomAndConfig s t ∧ AsksNoInput s t ∧
        t.view = { s.view with pc := if s.carry = true then imm else addressAfter s.pc }) ∧
    (s.traceAttached = true → s.traceAnswerAt 0 = .fail →
      ∃ t, exec (.jc imm) s = .next t ∧ KeepsRomAndConfig s t ∧ AsksNoInput s t ∧
        t.view = { s.view with status := .aborted .outputFailure })

/-- O13. `JMP imm` (R151): encoding, completion with its whole effect and frame, and the abort in the trace phase. -/
def Obligations.JmpAlwaysJumps : Prop :=
  ∀ (imm : Nibble) (s : State), s.status = .running →
    (∀ b : Byte, decode b = .jmp imm ↔ b &&& 0xF0#8 = 0xF0#8 ∧ b.extractLsb' 0 4 = imm) ∧
    ((s.traceAttached = true → s.traceAnswerAt 0 = .ok) →
      ∃ t, exec (.jmp imm) s = .next t ∧ KeepsRomAndConfig s t ∧ AsksNoInput s t ∧
        t.view = { s.view with pc := imm }) ∧
    (s.traceAttached = true → s.traceAnswerAt 0 = .fail →
      ∃ t, exec (.jmp imm) s = .next t ∧ KeepsRomAndConfig s t ∧ AsksNoInput s t ∧
        t.view = { s.view with status := .aborted .outputFailure })

/-- O14. `NOP8` (R160): encoding, completion with its whole effect and frame, and the abort in the trace phase. -/
def Obligations.Nop8OnlyAdvancesPc : Prop :=
  ∀ (ign : Nibble) (s : State), s.status = .running →
    (∀ b : Byte, decode b = .nop8 ign ↔ b &&& 0xF0#8 = 0x80#8 ∧ b.extractLsb' 0 4 = ign) ∧
    opcodeName 0x8 = Config.tracePlaceholder ∧
    ((s.traceAttached = true → s.traceAnswerAt 0 = .ok) →
      ∃ t, exec (.nop8 ign) s = .next t ∧ KeepsRomAndConfig s t ∧ AsksNoInput s t ∧
        t.view = { s.view with pc := addressAfter s.pc }) ∧
    (s.traceAttached = true → s.traceAnswerAt 0 = .fail →
      ∃ t, exec (.nop8 ign) s = .next t ∧ KeepsRomAndConfig s t ∧ AsksNoInput s t ∧
        t.view = { s.view with status := .aborted .outputFailure })

/-- O15. `NOPB` (R161): encoding, completion with its whole effect and frame, and the abort in the trace phase. -/
def Obligations.NopBOnlyAdvancesPc : Prop :=
  ∀ (ign : Nibble) (s : State), s.status = .running →
    (∀ b : Byte, decode b = .nopB ign ↔ b &&& 0xF0#8 = 0xB0#8 ∧ b.extractLsb' 0 4 = ign) ∧
    ((s.traceAttached = true → s.traceAnswerAt 0 = .ok) →
      ∃ t, exec (.nopB ign) s = .next t ∧ KeepsRomAndConfig s t ∧ AsksNoInput s t ∧
        t.view = { s.view with pc := addressAfter s.pc }) ∧
    (s.traceAttached = true → s.traceAnswerAt 0 = .fail →
      ∃ t, exec (.nopB ign) s = .next t ∧ KeepsRomAndConfig s t ∧ AsksNoInput s t ∧
        t.view = { s.view with status := .aborted .outputFailure })

/-- O16. `NOPC` (R162): encoding, completion with its whole effect and frame, and the abort in the trace phase. -/
def Obligations.NopCOnlyAdvancesPc : Prop :=
  ∀ (ign : Nibble) (s : State), s.status = .running →
    (∀ b : Byte, decode b = .nopC ign ↔ b &&& 0xF0#8 = 0xC0#8 ∧ b.extractLsb' 0 4 = ign) ∧
    ((s.traceAttached = true → s.traceAnswerAt 0 = .ok) →
      ∃ t, exec (.nopC ign) s = .next t ∧ KeepsRomAndConfig s t ∧ AsksNoInput s t ∧
        t.view = { s.view with pc := addressAfter s.pc }) ∧
    (s.traceAttached = true → s.traceAnswerAt 0 = .fail →
      ∃ t, exec (.nopC ign) s = .next t ∧ KeepsRomAndConfig s t ∧ AsksNoInput s t ∧
        t.view = { s.view with status := .aborted .outputFailure })

/-- O17. `NOPD` (R163): encoding, completion with its whole effect and frame, and the abort in the trace phase. -/
def Obligations.NopDOnlyAdvancesPc : Prop :=
  ∀ (ign : Nibble) (s : State), s.status = .running →
    (∀ b : Byte, decode b = .nopD ign ↔ b &&& 0xF0#8 = 0xD0#8 ∧ b.extractLsb' 0 4 = ign) ∧
    ((s.traceAttached = true → s.traceAnswerAt 0 = .ok) →
      ∃ t, exec (.nopD ign) s = .next t ∧ KeepsRomAndConfig s t ∧ AsksNoInput s t ∧
        t.view = { s.view with pc := addressAfter s.pc }) ∧
    (s.traceAttached = true → s.traceAnswerAt 0 = .fail →
      ∃ t, exec (.nopD ign) s = .next t ∧ KeepsRomAndConfig s t ∧ AsksNoInput s t ∧
        t.view = { s.view with status := .aborted .outputFailure })

/-- O18. `IN A` (R140) with its input phase (R103) and its aborts (R109). -/
def Obligations.InAReadsLatchesAndCopies : Prop :=
  ∀ (ign : Nibble) (s : State), s.status = .running →
    (∀ b : Byte, decode b = .inA ign ↔ b &&& 0xF0#8 = 0x20#8 ∧ b.extractLsb' 0 4 = ign) ∧
    (asmLine "in a".toList = .emit (.inA 0) ∧ encode (.inA 0) = 0x20#8) ∧
    -- no stream: no read; the latch is copied
    (s.inputAttached = false → (s.traceAttached = true → s.traceAnswerAt 0 = .ok) →
      ∃ t, exec (.inA ign) s = .next t ∧ KeepsRomAndConfig s t ∧ AsksNoInput s t ∧
        t.view = { s.view with a := s.inLatch, pc := addressAfter s.pc }) ∧
    (s.inputAttached = false → s.traceAttached = true → s.traceAnswerAt 0 = .fail →
      ∃ t, exec (.inA ign) s = .next t ∧ KeepsRomAndConfig s t ∧ AsksNoInput s t ∧
        t.view = { s.view with a := s.inLatch, status := .aborted .outputFailure }) ∧
    -- a stream that answers a value: it is latched and copied
    (∀ v : Nibble, s.inputAttached = true → s.inAnswerAt 0 = .value v →
      (s.traceAttached = true → s.traceAnswerAt 0 = .ok ∧ s.traceAnswerAt 1 = .ok) →
      ∃ t, exec (.inA ign) s = .next t ∧ KeepsRomAndConfig s t ∧ AsksOneInput s t ∧
        t.view = { s.view with inLatch := v, a := v, pc := addressAfter s.pc }) ∧
    (∀ v : Nibble, s.inputAttached = true → s.inAnswerAt 0 = .value v →
      s.traceAttached = true → s.traceAnswerAt 0 = .ok → s.traceAnswerAt 1 = .fail →
      ∃ t, exec (.inA ign) s = .next t ∧ KeepsRomAndConfig s t ∧ AsksOneInput s t ∧
        t.view = { s.view with inLatch := v, a := v, status := .aborted .outputFailure }) ∧
    -- a stream with no further token, and a failed prompt
    (s.inputAttached = true → s.inAnswerAt 0 = .exhausted →
      (s.traceAttached = true → s.traceAnswerAt 0 = .ok) →
      ∃ t, exec (.inA ign) s = .next t ∧ KeepsRomAndConfig s t ∧
        t.view = { s.view with status := .aborted .inputExhausted }) ∧
    (s.inputAttached = true → s.traceAttached = true → s.traceAnswerAt 0 = .fail →
      ∃ t, exec (.inA ign) s = .next t ∧ KeepsRomAndConfig s t ∧ AsksNoInput s t ∧
        t.view = { s.view with status := .aborted .outputFailure })

/-- O19. `IN B` (R141) with its input phase (R103) and its aborts (R109). -/
def Obligations.InBReadsLatchesAndCopies : Prop :=
  ∀ (ign : Nibble) (s : State), s.status = .running →
    (∀ b : Byte, decode b = .inB ign ↔ b &&& 0xF0#8 = 0x70#8 ∧ b.extractLsb' 0 4 = ign) ∧
    (asmLine "in b".toList = .emit (.inB 0) ∧ encode (.inB 0) = 0x70#8) ∧
    -- no stream: no read; the latch is copied
    (s.inputAttached = false → (s.traceAttached = true → s.traceAnswerAt 0 = .ok) →
      ∃ t, exec (.inB ign) s = .next t ∧ KeepsRomAndConfig s t ∧ AsksNoInput s t ∧
        t.view = { s.view with b := s.inLatch, pc := addressAfter s.pc }) ∧
    (s.inputAttached = false → s.traceAttached = true → s.traceAnswerAt 0 = .fail →
      ∃ t, exec (.inB ign) s = .next t ∧ KeepsRomAndConfig s t ∧ AsksNoInput s t ∧
        t.view = { s.view with b := s.inLatch, status := .aborted .outputFailure }) ∧
    -- a stream that answers a value: it is latched and copied
    (∀ v : Nibble, s.inputAttached = true → s.inAnswerAt 0 = .value v →
      (s.traceAttached = true → s.traceAnswerAt 0 = .ok ∧ s.traceAnswerAt 1 = .ok) →
      ∃ t, exec (.inB ign) s = .next t ∧ KeepsRomAndConfig s t ∧ AsksOneInput s t ∧
        t.view = { s.view with inLatch := v, b := v, pc := addressAfter s.pc }) ∧
    (∀ v : Nibble, s.inputAttached = true → s.inAnswerAt 0 = .value v →
      s.traceAttached = true → s.traceAnswerAt 0 = .ok → s.traceAnswerAt 1 = .fail →
      ∃ t, exec (.inB ign) s = .next t ∧ KeepsRomAndConfig s t ∧ AsksOneInput s t ∧
        t.view = { s.view with inLatch := v, b := v, status := .aborted .outputFailure }) ∧
    -- a stream with no further token, and a failed prompt
    (s.inputAttached = true → s.inAnswerAt 0 = .exhausted →
      (s.traceAttached = true → s.traceAnswerAt 0 = .ok) →
      ∃ t, exec (.inB ign) s = .next t ∧ KeepsRomAndConfig s t ∧
        t.view = { s.view with status := .aborted .inputExhausted }) ∧
    (s.inputAttached = true → s.traceAttached = true → s.traceAnswerAt 0 = .fail →
      ∃ t, exec (.inB ign) s = .next t ∧ KeepsRomAndConfig s t ∧ AsksNoInput s t ∧
        t.view = { s.view with status := .aborted .outputFailure })

/-- O20. The bridge from the statements about `exec` to a run: a step is `exec` of the decoded byte (R42, R101). -/
def Obligations.StepRunsTheDecodedInstruction : Prop :=
  ∀ (i : Instr) (s : State), decode (Memory.read s.rom s.pc) = i → step s = exec i s

/-- O21. After an abort the core takes no step until reset (R110). The form of the refusal is the model's choice (log entry 2). -/
def Obligations.NoStepAfterAbortUntilReset : Prop :=
  ∀ (s : State) (r : AbortReason), s.status = .aborted r →
    step s = .refused (.stepAfterAbort r) ∧
    (∀ i : Instr, exec i s = .refused (.stepAfterAbort r)) ∧
    s.applyReset.status = .running

/-- O22. The abort table of R109: what each abort point leaves, nothing rolled back (20_memory.md R46). -/
def Obligations.AbortLeavesExactState : Prop :=
  ∀ (i : Instr) (s : State), s.status = .running →
    (i.isIn = true → s.inputAttached = true → s.traceAttached = true → s.traceAnswerAt 0 = .fail →
      ∃ t, exec i s = .next t ∧ KeepsRomAndConfig s t ∧ AsksNoInput s t ∧
        t.view = { s.view with status := .aborted .outputFailure }) ∧
    (i.isIn = true → s.inputAttached = true → (s.traceAttached = true → s.traceAnswerAt 0 = .ok) →
      s.inAnswerAt 0 = .exhausted →
      ∃ t, exec i s = .next t ∧ KeepsRomAndConfig s t ∧
        t.view = { s.view with status := .aborted .inputExhausted }) ∧
    ((i.isIn = false ∨ s.inputAttached = false) → s.traceAttached = true → s.traceAnswerAt 0 = .fail →
      ∃ t u, exec i s = .next t ∧ exec i { s with traceAttached := false } = .next u ∧
        KeepsRomAndConfig s t ∧ AsksNoInput s t ∧ u.status = .running ∧
        t.view = { u.view with pc := s.pc, status := .aborted .outputFailure }) ∧
    (∀ v : Nibble, i.isIn = true → s.inputAttached = true → s.inAnswerAt 0 = .value v →
      s.traceAttached = true → s.traceAnswerAt 0 = .ok → s.traceAnswerAt 1 = .fail →
      ∃ t u, exec i s = .next t ∧ exec i { s with traceAttached := false } = .next u ∧
        KeepsRomAndConfig s t ∧ AsksOneInput s t ∧ u.status = .running ∧ t.inLatch = v ∧
        t.view = { u.view with pc := s.pc, status := .aborted .outputFailure })

/-- O23. The only abnormal ends of a step are the two aborts of R201; no instruction traps (R200). -/
def Obligations.OnlyTwoAbnormalEnds : Prop :=
  ∀ (i : Instr) (s : State), s.status = .running →
    ∃ t, exec i s = .next t ∧
      (t.status = .running ∨
       (t.status = .aborted .inputExhausted ∧ i.isIn = true ∧ s.inputAttached = true ∧
         s.inAnswerAt 0 = .exhausted ∧ t.pc = s.pc) ∨
       (t.status = .aborted .outputFailure ∧ s.traceAttached = true ∧ t.pc = s.pc ∧
         t.traceLog.getLast?.map TraceRecord.answer = some .fail))

/-- O24. The program counter's rule (R25): committed once by a completed step, kept by an aborted one. -/
def Obligations.PcIsCommittedByCompletedStepsOnly : Prop :=
  State.reset.pc = 0 ∧
  ∀ s : State, s.status = .running →
    ∃ t, step s = .next t ∧
      (t.status = .running → t.pc = committedPc (decode (Memory.read s.rom s.pc)) s) ∧
      (t.status ≠ .running → t.pc = s.pc)

/-- O25. Who writes and who reads `a` (R22): no other opcode's effect depends on `a`, the output port's among them (43_io.md R145), and what a load puts into `a` does not depend on it either. -/
def Obligations.RegisterAWritersAndReaders : Prop :=
  State.reset.a = 0 ∧
  (∀ (i : Instr) (s t : State), exec i s = .next t →
    i.opcode ∉ [0x0#4, 0x1#4, 0x2#4, 0x3#4] → t.a = s.a) ∧
  (∀ (i : Instr) (s : State) (x : Nibble), s.status = .running → i.opcode ∉ [0x0#4, 0x4#4] →
    ∃ t u, exec i s = .next t ∧ exec i (s.setA x) = .next u ∧
      t.traceLog.length = u.traceLog.length ∧
      (i.opcode ∈ [0x1#4, 0x3#4] → t.a = u.a) ∧
      (i.opcode = 0x2#4 → InputPhaseGoesOn s → t.a = u.a) ∧
      ({ t with a := 0, traceLog := [] } : State) = { u with a := 0, traceLog := [] })

/-- O26. Who writes and who reads `b` (R23): what a load puts into `b` does not depend on it either. -/
def Obligations.RegisterBWritersAndReaders : Prop :=
  State.reset.b = 0 ∧
  (∀ (i : Instr) (s t : State), exec i s = .next t →
    i.opcode ∉ [0x4#4, 0x5#4, 0x6#4, 0x7#4] → t.b = s.b) ∧
  (∀ (i : Instr) (s : State) (x : Nibble), s.status = .running → i.opcode ∉ [0x1#4, 0x6#4, 0x9#4] →
    ∃ t u, exec i s = .next t ∧ exec i (s.setB x) = .next u ∧
      t.traceLog.length = u.traceLog.length ∧
      (i.opcode ∈ [0x4#4, 0x5#4] → t.b = u.b) ∧
      (i.opcode = 0x7#4 → InputPhaseGoesOn s → t.b = u.b) ∧
      ({ t with b := 0, traceLog := [] } : State) = { u with b := 0, traceLog := [] })

/-- O27. The carry flag's rule (R26; the reading that won in 90_conflicts.md C1). -/
def Obligations.CarryWrittenByAddsReadByJc : Prop :=
  State.reset.carry = false ∧
  (∀ (i : Instr) (s t : State), exec i s = .next t →
    i.opcode ∉ [0x0#4, 0x6#4] → t.carry = s.carry) ∧
  (∀ (imm : Nibble) (s : State), s.status = .running →
    (∃ t, exec (.addA imm) s = .next t ∧ t.carry = decide (15 < s.a.toNat + imm.toNat)) ∧
    (∃ t, exec (.addB imm) s = .next t ∧ t.carry = decide (15 < s.b.toNat + imm.toNat))) ∧
  (∀ (i : Instr) (s : State) (x : Bool), s.status = .running → i.opcode ∉ [0xE#4] →
    ∃ t u, exec i s = .next t ∧ exec i (s.setCarry x) = .next u ∧
      t.traceLog.length = u.traceLog.length ∧
      (i.opcode ∈ [0x0#4, 0x6#4] → t.carry = u.carry) ∧
      ({ t with carry := false, traceLog := [] } : State) = { u with carry := false, traceLog := [] })

/-- O28. Who writes and who reads the input latch (R27). No trace line
shows it (R107), so the traces are the same too. -/
def Obligations.InputLatchWritersAndReaders : Prop :=
  State.reset.inLatch = 0 ∧
  (∀ (i : Instr) (s t : State), exec i s = .next t →
    i.opcode ∉ [0x2#4, 0x7#4] → t.inLatch = s.inLatch) ∧
  (∀ (i : Instr) (s t : State), exec i s = .next t → i.isIn = true →
    (s.inputAttached = false → t.inLatch = s.inLatch) ∧
    (s.inputAttached = true → s.traceAttached = true → s.traceAnswerAt 0 = .fail →
      t.inLatch = s.inLatch) ∧
    (s.inputAttached = true → s.inAnswerAt 0 = .exhausted → t.inLatch = s.inLatch) ∧
    (∀ v, s.inputAttached = true → s.inAnswerAt 0 = .value v →
      (s.traceAttached = true → s.traceAnswerAt 0 = .ok) → t.inLatch = v)) ∧
  (∀ (i : Instr) (s : State) (x : Nibble), s.status = .running → i.opcode ∉ [0x2#4, 0x7#4] →
    ∃ t u, exec i s = .next t ∧ exec i (s.setInLatch x) = .next u ∧
      ({ t with inLatch := 0 } : State) = { u with inLatch := 0 })

/-- O29. Who writes the output latch (R28, R144); no instruction reads it. -/
def Obligations.OutputLatchWrittenByOutReadByNone : Prop :=
  State.reset.out = 0 ∧
  (∀ s : State, s.outputPort = s.out) ∧
  (∀ (i : Instr) (s t : State), exec i s = .next t →
    i.opcode ∉ [0x9#4, 0xA#4] → t.out = s.out) ∧
  (∀ (i : Instr) (s : State) (x : Nibble), s.status = .running →
    ∃ t u, exec i s = .next t ∧ exec i (s.setOut x) = .next u ∧
      t.traceLog.length = u.traceLog.length ∧
      (i.opcode ∈ [0x9#4, 0xA#4] → t.out = u.out) ∧
      ({ t with out := 0, traceLog := [] } : State) = { u with out := 0, traceLog := [] })

/-- O30. The trace port (R103, R107, R210): the prompt, and one line with the fields of the step. -/
def Obligations.TraceWritesOfAStep : Prop :=
  ∀ (i : Instr) (s : State), s.status = .running →
    ∃ t, exec i s = .next t ∧
      let line : TraceText :=
        .line ⟨s.pc, i.opcode, i.lowNibble, t.a, t.b, t.out, t.carry⟩
      (s.traceAttached = false → t.traceLog = s.traceLog ∧ t.traceAnswers = s.traceAnswers) ∧
      (s.traceAttached = true → (i.isIn = false ∨ s.inputAttached = false) →
        t.traceLog = s.traceLog ++ [⟨line, s.traceAnswerAt 0⟩] ∧
        t.traceAnswers = s.traceAnswers.tail) ∧
      (s.traceAttached = true → i.isIn = true → s.inputAttached = true →
        (s.traceAnswerAt 0 = .fail →
          t.traceLog = s.traceLog ++ [⟨.prompt, .fail⟩] ∧ t.traceAnswers = s.traceAnswers.tail) ∧
        (s.traceAnswerAt 0 = .ok → s.inAnswerAt 0 = .exhausted →
          t.traceLog = s.traceLog ++ [⟨.prompt, .ok⟩] ∧ t.traceAnswers = s.traceAnswers.tail) ∧
        (∀ v, s.traceAnswerAt 0 = .ok → s.inAnswerAt 0 = .value v →
          t.traceLog = s.traceLog ++ [⟨.prompt, .ok⟩, ⟨line, s.traceAnswerAt 1⟩] ∧
            t.traceAnswers = s.traceAnswers.tail.tail))

/-- O31. The sequence law of R134 (corrected in 90_conflicts.md C4). -/
def Obligations.MovPairLeavesBothAsB : Prop :=
  ∀ (m n : Nibble) (s : State), s.status = .running →
    (s.traceAttached = true → s.traceAnswerAt 0 = .ok ∧ s.traceAnswerAt 1 = .ok) →
    ∃ t u, exec (.movAB m) s = .next t ∧ exec (.movBA n) t = .next u ∧
      t.status = .running ∧ u.status = .running ∧
      u.a = s.b ∧ u.b = s.b ∧ u.view = { t.view with pc := addressAfter t.pc } ∧
      ((u.a = s.a ∧ u.b = s.b) ↔ s.a = s.b)

/-- O32. Subtraction by adding the complement (R123). -/
def Obligations.AddOfComplementSubtracts : Prop :=
  ∀ s : State, s.status = .running → (s.traceAttached = true → s.traceAnswerAt 0 = .ok) →
    (∀ k : Nat, 1 ≤ k → k ≤ 15 →
      ∃ t, exec (.addA (BitVec.ofNat 4 (16 - k))) s = .next t ∧ t.status = .running ∧
        t.a.toNat = (s.a.toNat + 16 - k) % 16 ∧ (t.carry = true ↔ k ≤ s.a.toNat)) ∧
    (∃ t, exec (.addA 0) s = .next t ∧ t.status = .running ∧ t.a = s.a ∧ t.carry = false)

/-- O33. No software-visible hazard (R255): the jump sees the flag the step before wrote. -/
def Obligations.AddThenJcTestsTheSum : Prop :=
  ∀ (imm k : Nibble) (s : State), s.status = .running →
    (s.traceAttached = true → s.traceAnswerAt 0 = .ok ∧ s.traceAnswerAt 1 = .ok) →
    (∃ t u, exec (.addA imm) s = .next t ∧ exec (.jc k) t = .next u ∧
      t.status = .running ∧ u.status = .running ∧
      u.pc = if 15 < s.a.toNat + imm.toNat then k else addressAfter (addressAfter s.pc)) ∧
    (∃ t u, exec (.addB imm) s = .next t ∧ exec (.jc k) t = .next u ∧
      t.status = .running ∧ u.status = .running ∧
      u.pc = if 15 < s.b.toNat + imm.toNat then k else addressAfter (addressAfter s.pc))

/-- O34. The idiom for stopping (R113, R151), and the JC that loops on itself (R150). -/
def Obligations.JumpToItselfRepeatsForever : Prop :=
  ∀ (n : Nat) (s : State), s.status = .running → s.traceAttached = false →
    (decode (Memory.read s.rom s.pc) = .jmp s.pc ∨
      (decode (Memory.read s.rom s.pc) = .jc s.pc ∧ s.carry = true)) →
    Host.Core.run Sys2Proof.core n s = .next s

/-- O35. No step can abort when nothing is attached, so such a run never ends (R113). The reads and writes counted are the model's own fields (log entries 4 and 5). -/
def Obligations.DetachedRunNeverStops : Prop :=
  ∀ (n : Nat) (s : State), s.status = .running → s.inputAttached = false → s.traceAttached = false →
    ∃ t : State, Host.Core.run Sys2Proof.core n s = .next t ∧ t.status = .running ∧
      t.inputAttached = false ∧ t.traceAttached = false ∧
      t.rom = s.rom ∧ t.inReads = s.inReads ∧ t.traceLog = s.traceLog ∧ t.inLatch = s.inLatch

/-- O36. No instruction writes the ROM (R53), and the configuration is constant for a run (D8). -/
def Obligations.RomAndConfigurationAreConstant : Prop :=
  ∀ s : State, s.status = .running →
    ∃ t, step s = .next t ∧ t.rom = s.rom ∧
      t.inputAttached = s.inputAttached ∧ t.traceAttached = s.traceAttached

/-- O37. The machine's invariant, from every state that has it. The canonical form and the trace log are the model's own (log entries 5 and 6). -/
def Obligations.EveryStepKeepsTheInvariant : Prop :=
  ∀ s t : State, State.Inv s → step s = .next t → State.Inv t

/-- O38. The invariant holds after reset. -/
def Obligations.ResetHasTheInvariant : Prop :=
  State.Inv State.reset ∧ ∀ s : State, Memory.wf s.rom = true → State.Inv s.applyReset

/-- O39. Reset (R250) and the reset values of R33. -/
def Obligations.ResetZeroesEverythingButTheRom : Prop :=
  (∀ s : State, s.applyReset.view = ⟨0, 0, 0, 0, false, 0, .running⟩ ∧ s.applyReset.rom = s.rom) ∧
  State.reset.view = ⟨0, 0, 0, 0, false, 0, .running⟩ ∧
  ∀ addr : Nibble, Memory.read State.reset.rom addr = 0x00

/-- O40. An input read consumes a token (R47), so two reads give successive values (R141). -/
def Obligations.TwoInsReadSuccessiveValues : Prop :=
  ∀ (m n v w : Nibble) (s : State), s.status = .running → s.inputAttached = true →
    s.traceAttached = false → s.inAnswerAt 0 = .value v → s.inAnswerAt 1 = .value w →
    ∃ t u, exec (.inA m) s = .next t ∧ exec (.inB n) t = .next u ∧
      t.status = .running ∧ u.status = .running ∧
      u.a = v ∧ u.b = w ∧ u.inLatch = w ∧ u.inReads = s.inReads + 2 ∧
      u.inAnswerAt 0 = s.inAnswerAt 2

/-- O41. Two designs of the core agree (R67): the control table adds no behaviour. -/
def Obligations.ControlTableRunsTheSameCore : Prop :=
  ∀ (b : Byte) (s : State), controlledStep b s = exec (decode b) s

/-- O42. The round trip of R91 for every text the model admits, with the slots of R86 and the padding of R87. -/
def Obligations.AssembledRomDecodesToItsLines : Prop :=
  ∀ (text : List Char) (s : State), assemble text = .assembled s →
    let emitted := emittedBy (sourceLines text)
    emitted.length ≤ 16 ∧
    (∀ k : Nibble, ∀ i : Instr, emitted[k.toNat]? = some i → decode (Memory.read s.rom k) = i) ∧
    (∀ k : Nibble, emitted.length ≤ k.toNat → Memory.read s.rom k = 0x00) ∧
    s.view = ⟨0, 0, 0, 0, false, 0, .running⟩

/-- O43. Every instruction with a mnemonic can be written, and the 17th is an error (R76 to R81, R86). The canonical spelling is the model's own printer. -/
def Obligations.EveryShortProgramAssembles : Prop :=
  ∀ p : List Instr, p.all Instr.assemblable = true →
    (p.length ≤ 16 → ∃ s, assemble (sourceText p) = .assembled s ∧
      emittedBy (sourceLines (sourceText p)) = p ∧
      s.rom = romFrom 0 (p.map encode)) ∧
    (16 < p.length → assemble (sourceText p) = .failed (.capacityError 17))

/-- O44. The numeric operand of R84, `n & 0xF`, in every form that takes one (R76, R77, R79 to R81), with every separator of R72 and every line length of R89. The limit 32767 is the model's choice (log entry 13). -/
def Obligations.NumbersAreMaskedToFourBits : Prop :=
  ∀ (lead gap gap' digits trail : List Char) (n : Nat),
    isBlank lead = true → isBlank trail = true → IsFieldGap gap → IsFieldGap gap' →
    digits ≠ [] → digits.all Char.isDigit = true →
    digits.foldl (fun acc c => 10 * acc + (c.toNat - 48)) 0 = n → n ≤ 32767 →
    (∀ form : String × (Nibble → Instr), form ∈ [("out", .outImm), ("jc", .jc), ("jmp", .jmp)] →
      (lead ++ form.1.toList ++ gap ++ digits ++ trail).length ≤ 254 →
      asmLine (lead ++ form.1.toList ++ gap ++ digits ++ trail) =
        .emit (form.2 (BitVec.ofNat 4 (n % 16)))) ∧
    (∀ form : String × String × (Nibble → Instr),
      form ∈ [("add", "a", .addA), ("add", "b", .addB), ("mov", "a", .movAImm), ("mov", "b", .movBImm)] →
      (lead ++ form.1.toList ++ gap ++ form.2.1.toList ++ gap' ++ digits ++ trail).length ≤ 254 →
      asmLine (lead ++ form.1.toList ++ gap ++ form.2.1.toList ++ gap' ++ digits ++ trail) =
        .emit (form.2.2 (BitVec.ofNat 4 (n % 16))))

/-- O45. A comment-only line is skipped and consumes no ROM slot (R71, R75). -/
def Obligations.CommentLinesTakeNoSlot : Prop :=
  ∀ (mark : Char) (comment text : List Char) (s : State), mark ∈ [';', '#'] →
    comment.length ≤ 253 → '\n' ∉ comment →
    (assemble (mark :: comment ++ '\n' :: text) = .assembled s ↔ assemble text = .assembled s)

/-- O46. The dump produces hex images that load back (R253). The spelling of the dump and of a token is the model's choice (PRESUMED, log entry 15). -/
def Obligations.DumpLoadsBackTheSameRom : Prop :=
  ∀ m : Memory, Memory.wf m = true →
    ∃ text, dumpRom m .ok = .printed text ∧ (hexTokenTexts text).length = 16 ∧
      loadHexText text = .loaded m

/-- O47. Byte `k` is ROM entry `k`, and what is not filled is 0x00 (R251 to R253). R253 leaves more than 16 open; that none is loaded is D18 with I13 ('refuse'). The canonical form is the model's own (log entry 6). -/
def Obligations.LoadedImageFillsTheRomInOrder : Prop :=
  ∀ (image : List Byte) (s : State),
    (image.length ≤ 16 → ∃ t, s.loadRom image = some t ∧ t = { s with rom := t.rom } ∧
      Memory.wf t.rom = true ∧
      ∀ k : Nibble, Memory.read t.rom k = (image[k.toNat]?).getD 0x00) ∧
    (16 < image.length → s.loadRom image = none)

/-- O48. Load, configure, reset, then step (R254). Doing them as one action is the model's choice (log entry 18). -/
def Obligations.StartedRunBeginsAtZero : Prop :=
  ∀ (image : List Byte) (input trace : Bool) (ins : List InAnswer) (traces : List TraceAnswer)
    (s : State), image.length ≤ 16 →
    ∃ t, s.startRun image input trace ins traces = some t ∧
      t.view = ⟨0, 0, 0, 0, false, 0, .running⟩ ∧ t.rom = romFrom 0 image ∧
      t.inputAttached = input ∧ t.traceAttached = trace ∧ t.inAnswers = ins ∧ t.traceAnswers = traces

/-- O49. No step can abort when nothing is attached (R113), and the next state is again one where nothing is attached. -/
def Obligations.DetachedStepStaysRunningAndDetached : Prop :=
  ∀ s : State, s.status = .running → s.inputAttached = false → s.traceAttached = false →
    ∃ t, step s = .next t ∧ t.status = .running ∧ t.inputAttached = false ∧ t.traceAttached = false ∧
      t.pc = committedPc (decode (Memory.read s.rom s.pc)) s ∧ t.rom = s.rom ∧ t.inLatch = s.inLatch ∧
      AsksNoInput s t ∧ t.traceLog = s.traceLog ∧ t.traceAnswers = s.traceAnswers

/-- O50. The open parameters of the assembler decide only what the spec does not admit (R8, R74, R84). Taking them as arguments is log entry 24. -/
def Obligations.AdmittedTextAssemblesAlikeForEveryTool : Prop :=
  ∀ (tool : AsmTool) (text : List Char), (∀ n p, assemble text ≠ .notAdmitted n p) →
    assembleWith tool text = assemble text

/-- O51. The hex image of R253, whatever `HEX_LOADER_MODE` says of other images (R8, D18). That a token has the prefix `0x` is the model's reading (PRESUMED, log entry 15). -/
def Obligations.ImagesLoadAlikeInEveryLoader : Prop :=
  (∀ (mode : HexLoaderMode) (image : List Byte) (capitals : Bool) (sep : Char), image.length ≤ 16 →
    sep ∈ [',', ' ', '\n', '\t'] →
    loadHexTextWith mode (image.flatMap fun b =>
      "0x".toList ++ (Nat.toDigits 16 b.toNat).map (if capitals then Char.toUpper else id) ++ [sep]) =
        .loaded (romFrom 0 image)) ∧
  ∀ (mode : HexLoaderMode) (text : List Char) (m : Memory), loadHexText text = .loaded m →
    loadHexTextWith mode text = .loaded m
end

