-- ==== Sys2Proof/Laws/Assembler.lean ====
section
/-! SUPPORT. What each function of the assembler and of the image loader can do, said once. -/

namespace Sys2Proof.Machine

/-! ### Cutting a text -/

theorem splitAtChars_nil (sep : Char → Bool) : splitAtChars sep [] = [[]] := rfl

/-- A cut text has at least one piece. -/
theorem splitAtChars_ne_nil (sep : Char → Bool) (text : List Char) : splitAtChars sep text ≠ [] := by
  cases text with
  | nil => exact List.cons_ne_nil _ _
  | cons c cs =>
    rw [splitAtChars]
    split
    · exact List.cons_ne_nil _ _
    · split <;> exact List.cons_ne_nil _ _

theorem splitAtChars_cons_sep {sep : Char → Bool} {c : Char} (h : sep c = true) (cs : List Char) :
    splitAtChars sep (c :: cs) = [] :: splitAtChars sep cs := by
  rw [splitAtChars]
  cases hs : splitAtChars sep cs with
  | nil => exact absurd hs (splitAtChars_ne_nil sep cs)
  | cons w ws => simp [h]

/-- A piece without a separator, up to the separator after it. -/
theorem splitAtChars_append_sep {sep : Char → Bool} {c : Char} (hc : sep c = true) {w : List Char}
    (hw : ∀ x ∈ w, sep x = false) (rest : List Char) :
    splitAtChars sep (w ++ c :: rest) = w :: splitAtChars sep rest := by
  induction w with
  | nil => exact splitAtChars_cons_sep hc rest
  | cons x xs ih =>
    rw [List.cons_append, splitAtChars, ih fun y hy => hw y (List.mem_cons_of_mem x hy)]
    simp [hw x List.mem_cons_self]

/-- A text without a separator is one piece. -/
theorem splitAtChars_of_none {sep : Char → Bool} {w : List Char} (hw : ∀ x ∈ w, sep x = false) :
    splitAtChars sep w = [w] := by
  induction w with
  | nil => rfl
  | cons x xs ih =>
    rw [splitAtChars, ih fun y hy => hw y (List.mem_cons_of_mem x hy)]
    simp [hw x List.mem_cons_self]

/-- Leading whitespace makes no piece (30_encoding.md R72). -/
theorem piecesOf_blank_append {w : List Char} (h : isBlank w = true) (rest : List Char) :
    piecesOf Char.isWhitespace (w ++ rest) = piecesOf Char.isWhitespace rest := by
  induction w with
  | nil => rfl
  | cons c cs ih =>
    simp only [isBlank, List.all_cons, Bool.and_eq_true] at h ih
    unfold piecesOf at ih ⊢
    rw [List.cons_append, splitAtChars_cons_sep h.1]
    simpa using ih h.2

/-- A non-empty piece without a separator, up to the separator after it. -/
theorem piecesOf_append_sep {sep : Char → Bool} {c : Char} (hc : sep c = true) {w : List Char}
    (h0 : w ≠ []) (hw : ∀ x ∈ w, sep x = false) (rest : List Char) :
    piecesOf sep (w ++ c :: rest) = w :: piecesOf sep rest := by
  unfold piecesOf
  rw [splitAtChars_append_sep hc hw]
  simp [h0]

/-- A non-empty text without a separator is one piece. -/
theorem piecesOf_of_none {sep : Char → Bool} {w : List Char} (h0 : w ≠ [])
    (hw : ∀ x ∈ w, sep x = false) : piecesOf sep w = [w] := by
  unfold piecesOf
  rw [splitAtChars_of_none hw]
  simp [h0]

/-! ### One line -/

/-- A line without a comment mark is read whole (30_encoding.md R71). -/
theorem cutComment_of_none {w : List Char} (h : ∀ x ∈ w, x ≠ ';' ∧ x ≠ '#') : cutComment w = w := by
  induction w with
  | nil => rfl
  | cons c cs ih =>
    have hc := h c List.mem_cons_self
    rw [cutComment, if_neg (by simp [hc]), ih fun x hx => h x (List.mem_cons_of_mem _ hx)]

/-- Decimal digits are read in base 10 (30_encoding.md R84). -/
theorem decimalFrom_of_digits {w : List Char} (h : w.all Char.isDigit = true) (n : Nat) :
    decimalFrom n w = some (w.foldl (fun acc c => 10 * acc + (c.toNat - 48)) n) := by
  induction w generalizing n with
  | nil => rfl
  | cons c cs ih =>
    simp only [List.all_cons, Bool.and_eq_true] at h
    rw [decimalFrom, if_pos h.1, ih h.2]
    rfl

theorem withNumber_of_decimal {w : List Char} {n : Nat} (h : decimalValue w = some n) (tool : AsmTool)
    (make : Nibble → Instr) : withNumber tool w make = .emit (make (BitVec.ofNat 4 n)) := by
  simp only [withNumber, h]

/-- Fields without capitals are matched as they stand by every tool (30_encoding.md R74). -/
theorem caseFolded_of_noCapitals {fields : List (List Char)} (h : hasCapitals fields = false)
    (tool : AsmTool) : caseFolded tool fields = some fields := by
  simp [caseFolded, h]

/-- Where nothing is said of the tool, only fields without capitals are matched. -/
theorem caseFolded_admittedOnly (fields : List (List Char)) :
    caseFolded .admittedOnly fields = if hasCapitals fields then none else some fields := rfl

/-- An admitted line is read from its fields, by every tool alike up to its number (30_encoding.md R72,
R74, R89). -/
theorem asmLineWith_of_fields {line : List Char} {fields : List (List Char)} (hl : line.length ≤ 254)
    (hf : fieldsOf (cutComment line) = some fields) (hc : hasCapitals fields = false) (tool : AsmTool) :
    asmLineWith tool line = asmFields tool line fields := by
  unfold asmLineWith
  rw [if_neg (Nat.not_lt.mpr hl), hf]
  simp only [caseFolded_of_noCapitals hc]

/-! ### The lines of a text -/

section Lines

variable {tool : AsmTool} {n : Nat} {bytes : List Byte} {line : List Char} {rest : List (List Char)}

theorem asmFromWith_nil :
    asmFromWith tool n bytes [] = .assembled { State.reset with rom := romFrom 0 bytes } := rfl

theorem asmFromWith_of_skip (h : asmLineWith tool line = .skip) :
    asmFromWith tool n bytes (line :: rest) = asmFromWith tool (n + 1) bytes rest := by
  rw [asmFromWith, h]

theorem asmFromWith_of_error {k : SyntaxKind} (h : asmLineWith tool line = .error k) :
    asmFromWith tool n bytes (line :: rest) = .failed (.syntaxError n k) := by
  rw [asmFromWith, h]

theorem asmFromWith_of_notAdmitted {p : AsmOpen} (h : asmLineWith tool line = .notAdmitted p) :
    asmFromWith tool n bytes (line :: rest) = .notAdmitted n p := by
  rw [asmFromWith, h]

theorem asmFromWith_of_emit {i : Instr} (h : asmLineWith tool line = .emit i) (hb : bytes.length < 16) :
    asmFromWith tool n bytes (line :: rest) = asmFromWith tool (n + 1) (bytes ++ [encode i]) rest := by
  simp only [asmFromWith, h, if_neg (Nat.not_le.mpr hb)]

theorem asmFromWith_of_emit_full {i : Instr} (h : asmLineWith tool line = .emit i)
    (hb : 16 ≤ bytes.length) :
    asmFromWith tool n bytes (line :: rest) = .failed (.capacityError n) := by
  simp only [asmFromWith, h, if_pos hb]

end Lines

/-! ### The hex image -/

/-- What a loader can do: load the admitted image, or what its mode says of any other text. -/
theorem loadHexTextWith_cases (mode : HexLoaderMode) (text : List Char) :
    (∃ m, admittedHexImage text = some m ∧ loadHexTextWith mode text = .loaded m) ∨
    (admittedHexImage text = none ∧
      ((∃ es, mode text = .filled es ∧ loadHexTextWith mode text = .loaded (romFrom 0 es.toList)) ∨
       (mode text = .failed ∧ loadHexTextWith mode text = .failed) ∨
       (mode text = .notAdmitted ∧ loadHexTextWith mode text = .notAdmitted))) := by
  unfold loadHexTextWith
  cases admittedHexImage text with
  | some m => exact .inl ⟨m, rfl, rfl⟩
  | none =>
    cases mode text with
    | filled es => exact .inr ⟨rfl, .inl ⟨es, rfl, rfl⟩⟩
    | failed => exact .inr ⟨rfl, .inr (.inl ⟨rfl, rfl⟩)⟩
    | notAdmitted => exact .inr ⟨rfl, .inr (.inr ⟨rfl, rfl⟩)⟩

end Sys2Proof.Machine
end

