-- ==== Sys2Proof/Laws/State.lean ====
section
/-! SUPPORT. One lemma per field per update, each true by rfl, so that no later proof unfolds a record
update. -/

namespace Sys2Proof.Machine

/-! ### `State.setA` -/

@[simp] theorem State.setA_a (v : Nibble) (s : State) : (s.setA v).a = v := rfl
@[simp] theorem State.setA_b (v : Nibble) (s : State) : (s.setA v).b = s.b := rfl
@[simp] theorem State.setA_inLatch (v : Nibble) (s : State) : (s.setA v).inLatch = s.inLatch := rfl
@[simp] theorem State.setA_out (v : Nibble) (s : State) : (s.setA v).out = s.out := rfl
@[simp] theorem State.setA_carry (v : Nibble) (s : State) : (s.setA v).carry = s.carry := rfl
@[simp] theorem State.setA_pc (v : Nibble) (s : State) : (s.setA v).pc = s.pc := rfl
@[simp] theorem State.setA_rom (v : Nibble) (s : State) : (s.setA v).rom = s.rom := rfl
@[simp] theorem State.setA_status (v : Nibble) (s : State) : (s.setA v).status = s.status := rfl
@[simp] theorem State.setA_inputAttached (v : Nibble) (s : State) : (s.setA v).inputAttached = s.inputAttached := rfl
@[simp] theorem State.setA_traceAttached (v : Nibble) (s : State) : (s.setA v).traceAttached = s.traceAttached := rfl
@[simp] theorem State.setA_inAnswers (v : Nibble) (s : State) : (s.setA v).inAnswers = s.inAnswers := rfl
@[simp] theorem State.setA_inReads (v : Nibble) (s : State) : (s.setA v).inReads = s.inReads := rfl
@[simp] theorem State.setA_traceAnswers (v : Nibble) (s : State) : (s.setA v).traceAnswers = s.traceAnswers := rfl
@[simp] theorem State.setA_traceLog (v : Nibble) (s : State) : (s.setA v).traceLog = s.traceLog := rfl
@[simp] theorem State.setA_inAnswerAt (v : Nibble) (s : State) (k : Nat) :
    (s.setA v).inAnswerAt k = s.inAnswerAt k := rfl
@[simp] theorem State.setA_traceAnswerAt (v : Nibble) (s : State) (k : Nat) :
    (s.setA v).traceAnswerAt k = s.traceAnswerAt k := rfl

/-! ### `State.setB` -/

@[simp] theorem State.setB_a (v : Nibble) (s : State) : (s.setB v).a = s.a := rfl
@[simp] theorem State.setB_b (v : Nibble) (s : State) : (s.setB v).b = v := rfl
@[simp] theorem State.setB_inLatch (v : Nibble) (s : State) : (s.setB v).inLatch = s.inLatch := rfl
@[simp] theorem State.setB_out (v : Nibble) (s : State) : (s.setB v).out = s.out := rfl
@[simp] theorem State.setB_carry (v : Nibble) (s : State) : (s.setB v).carry = s.carry := rfl
@[simp] theorem State.setB_pc (v : Nibble) (s : State) : (s.setB v).pc = s.pc := rfl
@[simp] theorem State.setB_rom (v : Nibble) (s : State) : (s.setB v).rom = s.rom := rfl
@[simp] theorem State.setB_status (v : Nibble) (s : State) : (s.setB v).status = s.status := rfl
@[simp] theorem State.setB_inputAttached (v : Nibble) (s : State) : (s.setB v).inputAttached = s.inputAttached := rfl
@[simp] theorem State.setB_traceAttached (v : Nibble) (s : State) : (s.setB v).traceAttached = s.traceAttached := rfl
@[simp] theorem State.setB_inAnswers (v : Nibble) (s : State) : (s.setB v).inAnswers = s.inAnswers := rfl
@[simp] theorem State.setB_inReads (v : Nibble) (s : State) : (s.setB v).inReads = s.inReads := rfl
@[simp] theorem State.setB_traceAnswers (v : Nibble) (s : State) : (s.setB v).traceAnswers = s.traceAnswers := rfl
@[simp] theorem State.setB_traceLog (v : Nibble) (s : State) : (s.setB v).traceLog = s.traceLog := rfl
@[simp] theorem State.setB_inAnswerAt (v : Nibble) (s : State) (k : Nat) :
    (s.setB v).inAnswerAt k = s.inAnswerAt k := rfl
@[simp] theorem State.setB_traceAnswerAt (v : Nibble) (s : State) (k : Nat) :
    (s.setB v).traceAnswerAt k = s.traceAnswerAt k := rfl

/-! ### `State.setInLatch` -/

@[simp] theorem State.setInLatch_a (v : Nibble) (s : State) : (s.setInLatch v).a = s.a := rfl
@[simp] theorem State.setInLatch_b (v : Nibble) (s : State) : (s.setInLatch v).b = s.b := rfl
@[simp] theorem State.setInLatch_inLatch (v : Nibble) (s : State) : (s.setInLatch v).inLatch = v := rfl
@[simp] theorem State.setInLatch_out (v : Nibble) (s : State) : (s.setInLatch v).out = s.out := rfl
@[simp] theorem State.setInLatch_carry (v : Nibble) (s : State) : (s.setInLatch v).carry = s.carry := rfl
@[simp] theorem State.setInLatch_pc (v : Nibble) (s : State) : (s.setInLatch v).pc = s.pc := rfl
@[simp] theorem State.setInLatch_rom (v : Nibble) (s : State) : (s.setInLatch v).rom = s.rom := rfl
@[simp] theorem State.setInLatch_status (v : Nibble) (s : State) : (s.setInLatch v).status = s.status := rfl
@[simp] theorem State.setInLatch_inputAttached (v : Nibble) (s : State) : (s.setInLatch v).inputAttached = s.inputAttached := rfl
@[simp] theorem State.setInLatch_traceAttached (v : Nibble) (s : State) : (s.setInLatch v).traceAttached = s.traceAttached := rfl
@[simp] theorem State.setInLatch_inAnswers (v : Nibble) (s : State) : (s.setInLatch v).inAnswers = s.inAnswers := rfl
@[simp] theorem State.setInLatch_inReads (v : Nibble) (s : State) : (s.setInLatch v).inReads = s.inReads := rfl
@[simp] theorem State.setInLatch_traceAnswers (v : Nibble) (s : State) : (s.setInLatch v).traceAnswers = s.traceAnswers := rfl
@[simp] theorem State.setInLatch_traceLog (v : Nibble) (s : State) : (s.setInLatch v).traceLog = s.traceLog := rfl
@[simp] theorem State.setInLatch_inAnswerAt (v : Nibble) (s : State) (k : Nat) :
    (s.setInLatch v).inAnswerAt k = s.inAnswerAt k := rfl
@[simp] theorem State.setInLatch_traceAnswerAt (v : Nibble) (s : State) (k : Nat) :
    (s.setInLatch v).traceAnswerAt k = s.traceAnswerAt k := rfl

/-! ### `State.setOut` -/

@[simp] theorem State.setOut_a (v : Nibble) (s : State) : (s.setOut v).a = s.a := rfl
@[simp] theorem State.setOut_b (v : Nibble) (s : State) : (s.setOut v).b = s.b := rfl
@[simp] theorem State.setOut_inLatch (v : Nibble) (s : State) : (s.setOut v).inLatch = s.inLatch := rfl
@[simp] theorem State.setOut_out (v : Nibble) (s : State) : (s.setOut v).out = v := rfl
@[simp] theorem State.setOut_carry (v : Nibble) (s : State) : (s.setOut v).carry = s.carry := rfl
@[simp] theorem State.setOut_pc (v : Nibble) (s : State) : (s.setOut v).pc = s.pc := rfl
@[simp] theorem State.setOut_rom (v : Nibble) (s : State) : (s.setOut v).rom = s.rom := rfl
@[simp] theorem State.setOut_status (v : Nibble) (s : State) : (s.setOut v).status = s.status := rfl
@[simp] theorem State.setOut_inputAttached (v : Nibble) (s : State) : (s.setOut v).inputAttached = s.inputAttached := rfl
@[simp] theorem State.setOut_traceAttached (v : Nibble) (s : State) : (s.setOut v).traceAttached = s.traceAttached := rfl
@[simp] theorem State.setOut_inAnswers (v : Nibble) (s : State) : (s.setOut v).inAnswers = s.inAnswers := rfl
@[simp] theorem State.setOut_inReads (v : Nibble) (s : State) : (s.setOut v).inReads = s.inReads := rfl
@[simp] theorem State.setOut_traceAnswers (v : Nibble) (s : State) : (s.setOut v).traceAnswers = s.traceAnswers := rfl
@[simp] theorem State.setOut_traceLog (v : Nibble) (s : State) : (s.setOut v).traceLog = s.traceLog := rfl
@[simp] theorem State.setOut_inAnswerAt (v : Nibble) (s : State) (k : Nat) :
    (s.setOut v).inAnswerAt k = s.inAnswerAt k := rfl
@[simp] theorem State.setOut_traceAnswerAt (v : Nibble) (s : State) (k : Nat) :
    (s.setOut v).traceAnswerAt k = s.traceAnswerAt k := rfl

/-! ### `State.setCarry` -/

@[simp] theorem State.setCarry_a (v : Bool) (s : State) : (s.setCarry v).a = s.a := rfl
@[simp] theorem State.setCarry_b (v : Bool) (s : State) : (s.setCarry v).b = s.b := rfl
@[simp] theorem State.setCarry_inLatch (v : Bool) (s : State) : (s.setCarry v).inLatch = s.inLatch := rfl
@[simp] theorem State.setCarry_out (v : Bool) (s : State) : (s.setCarry v).out = s.out := rfl
@[simp] theorem State.setCarry_carry (v : Bool) (s : State) : (s.setCarry v).carry = v := rfl
@[simp] theorem State.setCarry_pc (v : Bool) (s : State) : (s.setCarry v).pc = s.pc := rfl
@[simp] theorem State.setCarry_rom (v : Bool) (s : State) : (s.setCarry v).rom = s.rom := rfl
@[simp] theorem State.setCarry_status (v : Bool) (s : State) : (s.setCarry v).status = s.status := rfl
@[simp] theorem State.setCarry_inputAttached (v : Bool) (s : State) : (s.setCarry v).inputAttached = s.inputAttached := rfl
@[simp] theorem State.setCarry_traceAttached (v : Bool) (s : State) : (s.setCarry v).traceAttached = s.traceAttached := rfl
@[simp] theorem State.setCarry_inAnswers (v : Bool) (s : State) : (s.setCarry v).inAnswers = s.inAnswers := rfl
@[simp] theorem State.setCarry_inReads (v : Bool) (s : State) : (s.setCarry v).inReads = s.inReads := rfl
@[simp] theorem State.setCarry_traceAnswers (v : Bool) (s : State) : (s.setCarry v).traceAnswers = s.traceAnswers := rfl
@[simp] theorem State.setCarry_traceLog (v : Bool) (s : State) : (s.setCarry v).traceLog = s.traceLog := rfl
@[simp] theorem State.setCarry_inAnswerAt (v : Bool) (s : State) (k : Nat) :
    (s.setCarry v).inAnswerAt k = s.inAnswerAt k := rfl
@[simp] theorem State.setCarry_traceAnswerAt (v : Bool) (s : State) (k : Nat) :
    (s.setCarry v).traceAnswerAt k = s.traceAnswerAt k := rfl

/-! ### `State.setPc` -/

@[simp] theorem State.setPc_a (v : Nibble) (s : State) : (s.setPc v).a = s.a := rfl
@[simp] theorem State.setPc_b (v : Nibble) (s : State) : (s.setPc v).b = s.b := rfl
@[simp] theorem State.setPc_inLatch (v : Nibble) (s : State) : (s.setPc v).inLatch = s.inLatch := rfl
@[simp] theorem State.setPc_out (v : Nibble) (s : State) : (s.setPc v).out = s.out := rfl
@[simp] theorem State.setPc_carry (v : Nibble) (s : State) : (s.setPc v).carry = s.carry := rfl
@[simp] theorem State.setPc_pc (v : Nibble) (s : State) : (s.setPc v).pc = v := rfl
@[simp] theorem State.setPc_rom (v : Nibble) (s : State) : (s.setPc v).rom = s.rom := rfl
@[simp] theorem State.setPc_status (v : Nibble) (s : State) : (s.setPc v).status = s.status := rfl
@[simp] theorem State.setPc_inputAttached (v : Nibble) (s : State) : (s.setPc v).inputAttached = s.inputAttached := rfl
@[simp] theorem State.setPc_traceAttached (v : Nibble) (s : State) : (s.setPc v).traceAttached = s.traceAttached := rfl
@[simp] theorem State.setPc_inAnswers (v : Nibble) (s : State) : (s.setPc v).inAnswers = s.inAnswers := rfl
@[simp] theorem State.setPc_inReads (v : Nibble) (s : State) : (s.setPc v).inReads = s.inReads := rfl
@[simp] theorem State.setPc_traceAnswers (v : Nibble) (s : State) : (s.setPc v).traceAnswers = s.traceAnswers := rfl
@[simp] theorem State.setPc_traceLog (v : Nibble) (s : State) : (s.setPc v).traceLog = s.traceLog := rfl
@[simp] theorem State.setPc_inAnswerAt (v : Nibble) (s : State) (k : Nat) :
    (s.setPc v).inAnswerAt k = s.inAnswerAt k := rfl
@[simp] theorem State.setPc_traceAnswerAt (v : Nibble) (s : State) (k : Nat) :
    (s.setPc v).traceAnswerAt k = s.traceAnswerAt k := rfl

/-! ### `State.setStatus` -/

@[simp] theorem State.setStatus_a (v : RunStatus) (s : State) : (s.setStatus v).a = s.a := rfl
@[simp] theorem State.setStatus_b (v : RunStatus) (s : State) : (s.setStatus v).b = s.b := rfl
@[simp] theorem State.setStatus_inLatch (v : RunStatus) (s : State) : (s.setStatus v).inLatch = s.inLatch := rfl
@[simp] theorem State.setStatus_out (v : RunStatus) (s : State) : (s.setStatus v).out = s.out := rfl
@[simp] theorem State.setStatus_carry (v : RunStatus) (s : State) : (s.setStatus v).carry = s.carry := rfl
@[simp] theorem State.setStatus_pc (v : RunStatus) (s : State) : (s.setStatus v).pc = s.pc := rfl
@[simp] theorem State.setStatus_rom (v : RunStatus) (s : State) : (s.setStatus v).rom = s.rom := rfl
@[simp] theorem State.setStatus_status (v : RunStatus) (s : State) : (s.setStatus v).status = v := rfl
@[simp] theorem State.setStatus_inputAttached (v : RunStatus) (s : State) : (s.setStatus v).inputAttached = s.inputAttached := rfl
@[simp] theorem State.setStatus_traceAttached (v : RunStatus) (s : State) : (s.setStatus v).traceAttached = s.traceAttached := rfl
@[simp] theorem State.setStatus_inAnswers (v : RunStatus) (s : State) : (s.setStatus v).inAnswers = s.inAnswers := rfl
@[simp] theorem State.setStatus_inReads (v : RunStatus) (s : State) : (s.setStatus v).inReads = s.inReads := rfl
@[simp] theorem State.setStatus_traceAnswers (v : RunStatus) (s : State) : (s.setStatus v).traceAnswers = s.traceAnswers := rfl
@[simp] theorem State.setStatus_traceLog (v : RunStatus) (s : State) : (s.setStatus v).traceLog = s.traceLog := rfl
@[simp] theorem State.setStatus_inAnswerAt (v : RunStatus) (s : State) (k : Nat) :
    (s.setStatus v).inAnswerAt k = s.inAnswerAt k := rfl
@[simp] theorem State.setStatus_traceAnswerAt (v : RunStatus) (s : State) (k : Nat) :
    (s.setStatus v).traceAnswerAt k = s.traceAnswerAt k := rfl

/-! ### `State.abort` -/

@[simp] theorem State.abort_a (r : AbortReason) (s : State) : (s.abort r).a = s.a := rfl
@[simp] theorem State.abort_b (r : AbortReason) (s : State) : (s.abort r).b = s.b := rfl
@[simp] theorem State.abort_inLatch (r : AbortReason) (s : State) : (s.abort r).inLatch = s.inLatch := rfl
@[simp] theorem State.abort_out (r : AbortReason) (s : State) : (s.abort r).out = s.out := rfl
@[simp] theorem State.abort_carry (r : AbortReason) (s : State) : (s.abort r).carry = s.carry := rfl
@[simp] theorem State.abort_pc (r : AbortReason) (s : State) : (s.abort r).pc = s.pc := rfl
@[simp] theorem State.abort_rom (r : AbortReason) (s : State) : (s.abort r).rom = s.rom := rfl
@[simp] theorem State.abort_status (r : AbortReason) (s : State) : (s.abort r).status = .aborted r := rfl
@[simp] theorem State.abort_inputAttached (r : AbortReason) (s : State) : (s.abort r).inputAttached = s.inputAttached := rfl
@[simp] theorem State.abort_traceAttached (r : AbortReason) (s : State) : (s.abort r).traceAttached = s.traceAttached := rfl
@[simp] theorem State.abort_inAnswers (r : AbortReason) (s : State) : (s.abort r).inAnswers = s.inAnswers := rfl
@[simp] theorem State.abort_inReads (r : AbortReason) (s : State) : (s.abort r).inReads = s.inReads := rfl
@[simp] theorem State.abort_traceAnswers (r : AbortReason) (s : State) : (s.abort r).traceAnswers = s.traceAnswers := rfl
@[simp] theorem State.abort_traceLog (r : AbortReason) (s : State) : (s.abort r).traceLog = s.traceLog := rfl
@[simp] theorem State.abort_inAnswerAt (r : AbortReason) (s : State) (k : Nat) :
    (s.abort r).inAnswerAt k = s.inAnswerAt k := rfl
@[simp] theorem State.abort_traceAnswerAt (r : AbortReason) (s : State) (k : Nat) :
    (s.abort r).traceAnswerAt k = s.traceAnswerAt k := rfl

/-! ### `State.useInAnswer` -/

@[simp] theorem State.useInAnswer_a (s : State) : (s.useInAnswer).a = s.a := rfl
@[simp] theorem State.useInAnswer_b (s : State) : (s.useInAnswer).b = s.b := rfl
@[simp] theorem State.useInAnswer_inLatch (s : State) : (s.useInAnswer).inLatch = s.inLatch := rfl
@[simp] theorem State.useInAnswer_out (s : State) : (s.useInAnswer).out = s.out := rfl
@[simp] theorem State.useInAnswer_carry (s : State) : (s.useInAnswer).carry = s.carry := rfl
@[simp] theorem State.useInAnswer_pc (s : State) : (s.useInAnswer).pc = s.pc := rfl
@[simp] theorem State.useInAnswer_rom (s : State) : (s.useInAnswer).rom = s.rom := rfl
@[simp] theorem State.useInAnswer_status (s : State) : (s.useInAnswer).status = s.status := rfl
@[simp] theorem State.useInAnswer_inputAttached (s : State) : (s.useInAnswer).inputAttached = s.inputAttached := rfl
@[simp] theorem State.useInAnswer_traceAttached (s : State) : (s.useInAnswer).traceAttached = s.traceAttached := rfl
@[simp] theorem State.useInAnswer_inAnswers (s : State) : (s.useInAnswer).inAnswers = s.inAnswers.tail := rfl
@[simp] theorem State.useInAnswer_inReads (s : State) : (s.useInAnswer).inReads = s.inReads + 1 := rfl
@[simp] theorem State.useInAnswer_traceAnswers (s : State) : (s.useInAnswer).traceAnswers = s.traceAnswers := rfl
@[simp] theorem State.useInAnswer_traceLog (s : State) : (s.useInAnswer).traceLog = s.traceLog := rfl
@[simp] theorem State.useInAnswer_traceAnswerAt (s : State) (k : Nat) :
    (s.useInAnswer).traceAnswerAt k = s.traceAnswerAt k := rfl

/-! ### `State.recordTrace` -/

@[simp] theorem State.recordTrace_a (t : TraceText) (s : State) : (s.recordTrace t).a = s.a := rfl
@[simp] theorem State.recordTrace_b (t : TraceText) (s : State) : (s.recordTrace t).b = s.b := rfl
@[simp] theorem State.recordTrace_inLatch (t : TraceText) (s : State) : (s.recordTrace t).inLatch = s.inLatch := rfl
@[simp] theorem State.recordTrace_out (t : TraceText) (s : State) : (s.recordTrace t).out = s.out := rfl
@[simp] theorem State.recordTrace_carry (t : TraceText) (s : State) : (s.recordTrace t).carry = s.carry := rfl
@[simp] theorem State.recordTrace_pc (t : TraceText) (s : State) : (s.recordTrace t).pc = s.pc := rfl
@[simp] theorem State.recordTrace_rom (t : TraceText) (s : State) : (s.recordTrace t).rom = s.rom := rfl
@[simp] theorem State.recordTrace_status (t : TraceText) (s : State) : (s.recordTrace t).status = s.status := rfl
@[simp] theorem State.recordTrace_inputAttached (t : TraceText) (s : State) : (s.recordTrace t).inputAttached = s.inputAttached := rfl
@[simp] theorem State.recordTrace_traceAttached (t : TraceText) (s : State) : (s.recordTrace t).traceAttached = s.traceAttached := rfl
@[simp] theorem State.recordTrace_inAnswers (t : TraceText) (s : State) : (s.recordTrace t).inAnswers = s.inAnswers := rfl
@[simp] theorem State.recordTrace_inReads (t : TraceText) (s : State) : (s.recordTrace t).inReads = s.inReads := rfl
@[simp] theorem State.recordTrace_traceAnswers (t : TraceText) (s : State) : (s.recordTrace t).traceAnswers = s.traceAnswers.tail := rfl
@[simp] theorem State.recordTrace_traceLog (t : TraceText) (s : State) : (s.recordTrace t).traceLog = s.traceLog ++ [⟨t, s.traceAnswerAt 0⟩] := rfl
@[simp] theorem State.recordTrace_inAnswerAt (t : TraceText) (s : State) (k : Nat) :
    (s.recordTrace t).inAnswerAt k = s.inAnswerAt k := rfl

/-! ### `State.applyReset` -/

@[simp] theorem State.applyReset_a (s : State) : (s.applyReset).a = 0 := rfl
@[simp] theorem State.applyReset_b (s : State) : (s.applyReset).b = 0 := rfl
@[simp] theorem State.applyReset_inLatch (s : State) : (s.applyReset).inLatch = 0 := rfl
@[simp] theorem State.applyReset_out (s : State) : (s.applyReset).out = 0 := rfl
@[simp] theorem State.applyReset_carry (s : State) : (s.applyReset).carry = false := rfl
@[simp] theorem State.applyReset_pc (s : State) : (s.applyReset).pc = 0 := rfl
@[simp] theorem State.applyReset_rom (s : State) : (s.applyReset).rom = s.rom := rfl
@[simp] theorem State.applyReset_status (s : State) : (s.applyReset).status = .running := rfl
@[simp] theorem State.applyReset_inputAttached (s : State) : (s.applyReset).inputAttached = s.inputAttached := rfl
@[simp] theorem State.applyReset_traceAttached (s : State) : (s.applyReset).traceAttached = s.traceAttached := rfl
@[simp] theorem State.applyReset_inAnswers (s : State) : (s.applyReset).inAnswers = s.inAnswers := rfl
@[simp] theorem State.applyReset_inReads (s : State) : (s.applyReset).inReads = s.inReads := rfl
@[simp] theorem State.applyReset_traceAnswers (s : State) : (s.applyReset).traceAnswers = s.traceAnswers := rfl
@[simp] theorem State.applyReset_traceLog (s : State) : (s.applyReset).traceLog = s.traceLog := rfl
@[simp] theorem State.applyReset_inAnswerAt (s : State) (k : Nat) :
    (s.applyReset).inAnswerAt k = s.inAnswerAt k := rfl
@[simp] theorem State.applyReset_traceAnswerAt (s : State) (k : Nat) :
    (s.applyReset).traceAnswerAt k = s.traceAnswerAt k := rfl

/-- After an input read, the answers stand one place nearer. -/
@[simp] theorem State.useInAnswer_inAnswerAt (s : State) (k : Nat) :
    s.useInAnswer.inAnswerAt k = s.inAnswerAt (k + 1) := by
  simp [State.inAnswerAt, Nat.add_right_comm, Nat.add_assoc]

/-- After a trace write, the answers stand one place nearer. -/
@[simp] theorem State.recordTrace_traceAnswerAt (t : TraceText) (s : State) (k : Nat) :
    (s.recordTrace t).traceAnswerAt k = s.traceAnswerAt (k + 1) := by
  simp [State.traceAnswerAt, Nat.add_right_comm, Nat.add_assoc]

/-! ### `State.view` -/

@[simp] theorem State.view_a (s : State) : s.view.a = s.a := rfl
@[simp] theorem State.view_b (s : State) : s.view.b = s.b := rfl
@[simp] theorem State.view_inLatch (s : State) : s.view.inLatch = s.inLatch := rfl
@[simp] theorem State.view_out (s : State) : s.view.out = s.out := rfl
@[simp] theorem State.view_carry (s : State) : s.view.carry = s.carry := rfl
@[simp] theorem State.view_pc (s : State) : s.view.pc = s.pc := rfl
@[simp] theorem State.view_status (s : State) : s.view.status = s.status := rfl

@[simp] theorem State.view_setA (v : Nibble) (s : State) :
    (s.setA v).view = { s.view with a := v } := rfl
@[simp] theorem State.view_setB (v : Nibble) (s : State) :
    (s.setB v).view = { s.view with b := v } := rfl
@[simp] theorem State.view_setInLatch (v : Nibble) (s : State) :
    (s.setInLatch v).view = { s.view with inLatch := v } := rfl
@[simp] theorem State.view_setOut (v : Nibble) (s : State) :
    (s.setOut v).view = { s.view with out := v } := rfl
@[simp] theorem State.view_setCarry (v : Bool) (s : State) :
    (s.setCarry v).view = { s.view with carry := v } := rfl
@[simp] theorem State.view_setPc (v : Nibble) (s : State) :
    (s.setPc v).view = { s.view with pc := v } := rfl
@[simp] theorem State.view_setStatus (v : RunStatus) (s : State) :
    (s.setStatus v).view = { s.view with status := v } := rfl
@[simp] theorem State.view_abort (r : AbortReason) (s : State) :
    (s.abort r).view = { s.view with status := .aborted r } := rfl
@[simp] theorem State.view_useInAnswer (s : State) : s.useInAnswer.view = s.view := rfl
@[simp] theorem State.view_recordTrace (t : TraceText) (s : State) : (s.recordTrace t).view = s.view := rfl

end Sys2Proof.Machine
end

