-- ==== Sys2Proof/Laws/Ops.lean ====
section
/-! SUPPORT. What each shared operation can do, said once. -/

namespace Sys2Proof.Machine

/-- The normalize phase changes nothing on 4-bit registers (40_execution_cycle.md R106). -/
@[simp] theorem normalize_eq (s : State) : normalize s = s := by
  have h : ∀ x : Nibble, x &&& 0xF = x := by decide
  simp only [normalize, h, State.setA, State.setB]

@[simp] theorem noInputPhase_eq (s : State) : noInputPhase s = .goOn s := rfl

@[simp] theorem PhaseEnd.goOn_andThen (s : State) (f : State → PhaseEnd) :
    (PhaseEnd.goOn s).andThen f = f s := rfl

@[simp] theorem PhaseEnd.stop_andThen (s : State) (f : State → PhaseEnd) :
    (PhaseEnd.stop s).andThen f = .stop s := rfl

@[simp] theorem PhaseEnd.goOn_state (s : State) : (PhaseEnd.goOn s).state = s := rfl

@[simp] theorem PhaseEnd.stop_state (s : State) : (PhaseEnd.stop s).state = s := rfl

/-- A trace write goes on where the host accepts it, and aborts where it does not. -/
theorem traceWrite_cases (t : TraceText) (s : State) :
    (s.traceAnswerAt 0 = .ok ∧ traceWrite t s = .goOn (s.recordTrace t)) ∨
    (s.traceAnswerAt 0 = .fail ∧
      traceWrite t s = .stop ((s.recordTrace t).abort .outputFailure)) := by
  unfold traceWrite
  cases h : s.traceAnswerAt 0
  · exact .inl ⟨rfl, rfl⟩
  · exact .inr ⟨rfl, rfl⟩

theorem traceWrite_of_ok {s : State} (h : s.traceAnswerAt 0 = .ok) (t : TraceText) :
    traceWrite t s = .goOn (s.recordTrace t) := by
  simp only [traceWrite, h]

theorem traceWrite_of_fail {s : State} (h : s.traceAnswerAt 0 = .fail) (t : TraceText) :
    traceWrite t s = .stop ((s.recordTrace t).abort .outputFailure) := by
  simp only [traceWrite, h]

/-- An input read latches the host's value, or aborts where the stream has no further token. -/
theorem inputRead_cases (s : State) :
    (∃ v, s.inAnswerAt 0 = .value v ∧ inputRead s = .goOn (s.useInAnswer.setInLatch v)) ∨
    (s.inAnswerAt 0 = .exhausted ∧ inputRead s = .stop (s.useInAnswer.abort .inputExhausted)) := by
  unfold inputRead
  cases h : s.inAnswerAt 0 with
  | value v => exact .inl ⟨v, rfl, rfl⟩
  | exhausted => exact .inr ⟨rfl, rfl⟩

theorem inputRead_of_value {s : State} {v : Nibble} (h : s.inAnswerAt 0 = .value v) :
    inputRead s = .goOn (s.useInAnswer.setInLatch v) := by
  simp only [inputRead, h]

theorem inputRead_of_exhausted {s : State} (h : s.inAnswerAt 0 = .exhausted) :
    inputRead s = .stop (s.useInAnswer.abort .inputExhausted) := by
  simp only [inputRead, h]

theorem inputPhase_of_detached {s : State} (h : s.inputAttached = false) :
    inputPhase s = .goOn s := by
  simp [inputPhase, h]

theorem inputPhase_of_quiet {s : State} (h : s.inputAttached = true) (ht : s.traceAttached = false) :
    inputPhase s = inputRead s := by
  simp [inputPhase, h, ht]

theorem inputPhase_of_traced {s : State} (h : s.inputAttached = true) (ht : s.traceAttached = true) :
    inputPhase s = (traceWrite .prompt s).andThen inputRead := by
  simp [inputPhase, h, ht]

theorem tracePhase_of_detached {s : State} (h : s.traceAttached = false) (i : Instr) :
    tracePhase i s = .goOn s := by
  simp [tracePhase, h]

theorem tracePhase_of_attached {s : State} (h : s.traceAttached = true) (i : Instr) :
    tracePhase i s = traceWrite (.line (traceLineOf i s)) s := by
  simp [tracePhase, h]

section Phases

variable {i : Instr} {input : State → PhaseEnd} {effect : State → State} {next : State → Nibble}
variable {s s2 s5 : State}

/-- Everything a step can do once it runs: stop in phase 2, stop in phase 5, or commit. -/
theorem phases_cases (i : Instr) (input : State → PhaseEnd) (effect : State → State)
    (next : State → Nibble) (s : State) :
    (∃ t, input s = .stop t ∧ phases i input effect next s = t) ∨
    (∃ s2 t, input s = .goOn s2 ∧ tracePhase i (effect s2) = .stop t ∧
      phases i input effect next s = t) ∨
    (∃ s2 s5, input s = .goOn s2 ∧ tracePhase i (effect s2) = .goOn s5 ∧
      phases i input effect next s = s5.setPc (next s2)) := by
  unfold phases
  cases h : input s with
  | stop t => exact .inl ⟨t, rfl, rfl⟩
  | goOn s2 =>
    cases h5 : tracePhase i (effect s2) with
    | stop t => exact .inr (.inl ⟨s2, t, rfl, h5, by simp [h5]⟩)
    | goOn s5 => exact .inr (.inr ⟨s2, s5, rfl, h5, by simp [h5]⟩)

theorem phases_of_inputStop (h : input s = .stop s2) : phases i input effect next s = s2 := by
  simp [phases, h]

theorem phases_of_traceStop (h : input s = .goOn s2) (h5 : tracePhase i (effect s2) = .stop s5) :
    phases i input effect next s = s5 := by
  simp [phases, h, h5]

theorem phases_of_commit (h : input s = .goOn s2) (h5 : tracePhase i (effect s2) = .goOn s5) :
    phases i input effect next s = s5.setPc (next s2) := by
  simp [phases, h, h5]

theorem runStep_of_running (h : s.status = .running) :
    runStep i input effect next s = .next (phases i input effect next s) := by
  simp only [runStep, h]

theorem runStep_of_aborted {r : AbortReason} (h : s.status = .aborted r) :
    runStep i input effect next s = .refused (.stepAfterAbort r) := by
  simp only [runStep, h]

/-- A meaning answers a next state exactly on a running core. -/
theorem runStep_next_iff {t : State} :
    runStep i input effect next s = .next t ↔
      s.status = .running ∧ t = phases i input effect next s := by
  cases h : s.status with
  | running => simp [runStep_of_running h, eq_comm]
  | aborted r => simp [runStep_of_aborted h]

end Phases

end Sys2Proof.Machine
end

