-- ==== Sys2Proof/Laws/Exec.lean ====
section
/-! SUPPORT. `exec` said once for all sixteen instructions: each is the shared step with its own input
phase, register effect and next pc. Later proofs split on these three instead of on the dispatch. -/

namespace Sys2Proof.Machine

/-- Phase 2 of an instruction. -/
def inputOf (i : Instr) : State → PhaseEnd := if i.isIn then inputPhase else noInputPhase

/-- The register writes of an instruction's phase 3. -/
def effectOf : Instr → State → State
  | .addA n => addTo .regA .regA n
  | .movAB _ => move .regA .regB
  | .inA _ => move .regA .inLatch
  | .movAImm n => move .regA (.imm n)
  | .movBA _ => move .regB .regA
  | .movBImm n => move .regB (.imm n)
  | .addB n => addTo .regB .regB n
  | .inB _ => move .regB .inLatch
  | .outB _ => move .out .regB
  | .outImm n => move .out (.imm n)
  | .nop8 _ | .nopB _ | .nopC _ | .nopD _ | .jc _ | .jmp _ => nothing

/-- The next pc an instruction's phase 3 leaves. -/
def nextOf : Instr → State → Nibble
  | .jc n => fun t => if t.carry then n else sequential t
  | .jmp n => fun _ => n
  | .addA _ | .movAB _ | .inA _ | .movAImm _ | .movBA _ | .movBImm _ | .addB _ | .inB _ => sequential
  | .nop8 _ | .outB _ | .outImm _ | .nopB _ | .nopC _ | .nopD _ => sequential

/-- Every meaning is the shared step with the instruction's own three parts. -/
theorem exec_eq_runStep (i : Instr) (s : State) :
    exec i s = runStep i (inputOf i) (effectOf i) (nextOf i) s := by
  cases i <;> rfl

/-- Phase 3 writes only `a`, `b`, `carry` and `out` (40_execution_cycle.md R104). -/
theorem effectOf_keeps (i : Instr) (s : State) :
    (effectOf i s).inLatch = s.inLatch ∧ (effectOf i s).pc = s.pc ∧ (effectOf i s).rom = s.rom ∧
    (effectOf i s).status = s.status ∧ (effectOf i s).inputAttached = s.inputAttached ∧
    (effectOf i s).traceAttached = s.traceAttached ∧ (effectOf i s).inAnswers = s.inAnswers ∧
    (effectOf i s).inReads = s.inReads ∧ (effectOf i s).traceAnswers = s.traceAnswers ∧
    (effectOf i s).traceLog = s.traceLog := by
  cases i <;> exact ⟨rfl, rfl, rfl, rfl, rfl, rfl, rfl, rfl, rfl, rfl⟩

/-! ### Phase 2 of any instruction -/

section Closed

variable {i : Instr} {s s2 : State} {v : Nibble}

theorem inputOf_of_noRead (h : i.isIn = false ∨ s.inputAttached = false) : inputOf i s = .goOn s := by
  cases hi : i.isIn
  · simp [inputOf, hi]
  · simpa [inputOf, hi] using inputPhase_of_detached (h.resolve_left (by simp [hi]))

theorem inputOf_of_value (hi : i.isIn = true) (ha : s.inputAttached = true)
    (ht : s.traceAttached = false) (hv : s.inAnswerAt 0 = .value v) :
    inputOf i s = .goOn (s.useInAnswer.setInLatch v) := by
  simp [inputOf, hi, inputPhase_of_quiet ha ht, inputRead_of_value hv]

theorem inputOf_of_exhausted (hi : i.isIn = true) (ha : s.inputAttached = true)
    (ht : s.traceAttached = false) (hv : s.inAnswerAt 0 = .exhausted) :
    inputOf i s = .stop (s.useInAnswer.abort .inputExhausted) := by
  simp [inputOf, hi, inputPhase_of_quiet ha ht, inputRead_of_exhausted hv]

theorem inputOf_of_prompt_value (hi : i.isIn = true) (ha : s.inputAttached = true)
    (ht : s.traceAttached = true) (h0 : s.traceAnswerAt 0 = .ok) (hv : s.inAnswerAt 0 = .value v) :
    inputOf i s = .goOn ((s.recordTrace .prompt).useInAnswer.setInLatch v) := by
  simp [inputOf, hi, inputPhase_of_traced ha ht, traceWrite_of_ok h0, inputRead, hv]

theorem inputOf_of_prompt_exhausted (hi : i.isIn = true) (ha : s.inputAttached = true)
    (ht : s.traceAttached = true) (h0 : s.traceAnswerAt 0 = .ok) (hv : s.inAnswerAt 0 = .exhausted) :
    inputOf i s = .stop ((s.recordTrace .prompt).useInAnswer.abort .inputExhausted) := by
  simp [inputOf, hi, inputPhase_of_traced ha ht, traceWrite_of_ok h0, inputRead, hv]

theorem inputOf_of_promptFail (hi : i.isIn = true) (ha : s.inputAttached = true)
    (ht : s.traceAttached = true) (h0 : s.traceAnswerAt 0 = .fail) :
    inputOf i s = .stop ((s.recordTrace .prompt).abort .outputFailure) := by
  simp [inputOf, hi, inputPhase_of_traced ha ht, traceWrite_of_fail h0]

/-! ### `exec` on a running core, from how phase 2 ends -/

theorem exec_of_inputStop (hr : s.status = .running) (h : inputOf i s = .stop s2) :
    exec i s = .next s2 := by
  rw [exec_eq_runStep, runStep_of_running hr, phases_of_inputStop h]

theorem exec_of_untraced (hr : s.status = .running) (h : inputOf i s = .goOn s2)
    (ht : s2.traceAttached = false) :
    exec i s = .next ((effectOf i s2).setPc (nextOf i s2)) := by
  rw [exec_eq_runStep, runStep_of_running hr,
    phases_of_commit h (tracePhase_of_detached ((effectOf_keeps i s2).2.2.2.2.2.1.trans ht) i)]

theorem effectOf_traceAnswerAt (i : Instr) (s : State) (k : Nat) :
    (effectOf i s).traceAnswerAt k = s.traceAnswerAt k := by
  cases i <;> rfl

theorem exec_of_lineOk (hr : s.status = .running) (h : inputOf i s = .goOn s2)
    (ht : s2.traceAttached = true) (h0 : s2.traceAnswerAt 0 = .ok) :
    exec i s = .next (((effectOf i s2).recordTrace (.line (traceLineOf i (effectOf i s2)))).setPc
      (nextOf i s2)) := by
  rw [exec_eq_runStep, runStep_of_running hr, phases_of_commit h]
  rw [tracePhase_of_attached ((effectOf_keeps i s2).2.2.2.2.2.1.trans ht),
    traceWrite_of_ok ((effectOf_traceAnswerAt i s2 0).trans h0)]

theorem exec_of_lineFail (hr : s.status = .running) (h : inputOf i s = .goOn s2)
    (ht : s2.traceAttached = true) (h0 : s2.traceAnswerAt 0 = .fail) :
    exec i s = .next (((effectOf i s2).recordTrace (.line (traceLineOf i (effectOf i s2)))).abort
      .outputFailure) := by
  rw [exec_eq_runStep, runStep_of_running hr, phases_of_traceStop h]
  rw [tracePhase_of_attached ((effectOf_keeps i s2).2.2.2.2.2.1.trans ht),
    traceWrite_of_fail ((effectOf_traceAnswerAt i s2 0).trans h0)]

end Closed

/-- THE INVERSION: every way a step of a running core can end. `s2` is the state that phase 2 leaves
where the step goes on. -/
theorem exec_cases (i : Instr) {s : State} (hr : s.status = .running) :
    (∃ t, inputOf i s = .stop t ∧ exec i s = .next t) ∨
    (∃ s2, inputOf i s = .goOn s2 ∧ s2.traceAttached = false ∧
      exec i s = .next ((effectOf i s2).setPc (nextOf i s2))) ∨
    (∃ s2, inputOf i s = .goOn s2 ∧ s2.traceAttached = true ∧ s2.traceAnswerAt 0 = .ok ∧
      exec i s = .next (((effectOf i s2).recordTrace
        (.line (traceLineOf i (effectOf i s2)))).setPc (nextOf i s2))) ∨
    (∃ s2, inputOf i s = .goOn s2 ∧ s2.traceAttached = true ∧ s2.traceAnswerAt 0 = .fail ∧
      exec i s = .next (((effectOf i s2).recordTrace
        (.line (traceLineOf i (effectOf i s2)))).abort .outputFailure)) := by
  cases h : inputOf i s with
  | stop t => exact .inl ⟨t, rfl, exec_of_inputStop hr h⟩
  | goOn s2 =>
    cases ht : s2.traceAttached
    · exact .inr (.inl ⟨s2, rfl, ht, exec_of_untraced hr h ht⟩)
    · cases h0 : s2.traceAnswerAt 0
      · exact .inr (.inr (.inl ⟨s2, rfl, ht, h0, exec_of_lineOk hr h ht h0⟩))
      · exact .inr (.inr (.inr ⟨s2, rfl, ht, h0, exec_of_lineFail hr h ht h0⟩))

/-- THE INVERSION of phase 2: every way it can end, with the state it leaves. -/
theorem inputOf_cases (i : Instr) (s : State) :
    ((i.isIn = false ∨ s.inputAttached = false) ∧ inputOf i s = .goOn s) ∨
    (i.isIn = true ∧ s.inputAttached = true ∧ ∃ v, s.inAnswerAt 0 = .value v ∧
      ((s.traceAttached = false ∧ inputOf i s = .goOn (s.useInAnswer.setInLatch v)) ∨
       (s.traceAttached = true ∧ s.traceAnswerAt 0 = .ok ∧
         inputOf i s = .goOn ((s.recordTrace .prompt).useInAnswer.setInLatch v)))) ∨
    (i.isIn = true ∧ s.inputAttached = true ∧ s.inAnswerAt 0 = .exhausted ∧
      ((s.traceAttached = false ∧ inputOf i s = .stop (s.useInAnswer.abort .inputExhausted)) ∨
       (s.traceAttached = true ∧ s.traceAnswerAt 0 = .ok ∧
         inputOf i s = .stop ((s.recordTrace .prompt).useInAnswer.abort .inputExhausted)))) ∨
    (i.isIn = true ∧ s.inputAttached = true ∧ s.traceAttached = true ∧ s.traceAnswerAt 0 = .fail ∧
      inputOf i s = .stop ((s.recordTrace .prompt).abort .outputFailure)) := by
  cases hi : i.isIn
  · exact .inl ⟨.inl rfl, inputOf_of_noRead (.inl hi)⟩
  cases ha : s.inputAttached
  · exact .inl ⟨.inr rfl, inputOf_of_noRead (.inr ha)⟩
  cases ht : s.traceAttached
  · cases hv : s.inAnswerAt 0 with
    | value v => exact .inr (.inl ⟨rfl, rfl, v, rfl, .inl ⟨rfl, inputOf_of_value hi ha ht hv⟩⟩)
    | exhausted =>
      exact .inr (.inr (.inl ⟨rfl, rfl, rfl, .inl ⟨rfl, inputOf_of_exhausted hi ha ht hv⟩⟩))
  · cases h0 : s.traceAnswerAt 0
    · cases hv : s.inAnswerAt 0 with
      | value v =>
        exact .inr (.inl ⟨rfl, rfl, v, rfl, .inr ⟨rfl, rfl, inputOf_of_prompt_value hi ha ht h0 hv⟩⟩)
      | exhausted =>
        exact .inr (.inr (.inl ⟨rfl, rfl, rfl,
          .inr ⟨rfl, rfl, inputOf_of_prompt_exhausted hi ha ht h0 hv⟩⟩))
    · exact .inr (.inr (.inr ⟨rfl, rfl, rfl, rfl, inputOf_of_promptFail hi ha ht h0⟩))

/-- The adder computes the exact sum modulo 16 (41_alu.md R122). -/
theorem aluResult_toNat (x y : Nibble) : (aluResult x y).toNat = (x.toNat + y.toNat) % 16 := by
  simp only [aluResult, aluSum, BitVec.toNat_setWidth, BitVec.toNat_add]
  omega

/-- The carry out is 1 exactly where the exact sum exceeds 15 (41_alu.md R122). -/
theorem aluCarry_eq (x y : Nibble) : aluCarry x y = decide (15 < x.toNat + y.toNat) := by
  have h : ∀ x y : Nibble, aluCarry x y = decide (15 < x.toNat + y.toNat) := by decide
  exact h x y

end Sys2Proof.Machine
end

