-- ==== Sys2Proof/Laws/Memory.lean ====
section
/-! SUPPORT. The laws of the ROM: a write is read back, leaves every other entry alone and keeps the
canonical form; an image is in canonical form. -/

namespace Sys2Proof.Machine

theorem Memory.wfFrom_mono {low low' : Nat} (h : low' ≤ low) {m : Memory}
    (hm : Memory.wfFrom low m = true) : Memory.wfFrom low' m = true := by
  cases m with
  | nil => rfl
  | cons c rest =>
    simp only [Memory.wfFrom, Bool.and_eq_true, decide_eq_true_eq] at hm ⊢
    exact ⟨⟨⟨by omega, hm.1.1.2⟩, hm.1.2⟩, hm.2⟩

/-- Below a canonical list's first address nothing is listed. -/
theorem Memory.lookup_below {low addr : Nat} (h : addr < low) {m : Memory}
    (hm : Memory.wfFrom low m = true) : Memory.lookup m addr = unfilledByte := by
  induction m generalizing low with
  | nil => rfl
  | cons c rest ih =>
    simp only [Memory.wfFrom, Bool.and_eq_true, decide_eq_true_eq] at hm
    rw [Memory.lookup, if_neg (by omega)]
    exact ih (by omega) hm.2

theorem Memory.lookup_store_same {low : Nat} {m : Memory} (hm : Memory.wfFrom low m = true)
    (addr : Nat) (v : Byte) : Memory.lookup (Memory.store m addr v) addr = v := by
  induction m generalizing low with
  | nil => by_cases hv : v = unfilledByte <;> simp [Memory.store, Memory.lookup, hv]
  | cons c rest ih =>
    simp only [Memory.wfFrom, Bool.and_eq_true, decide_eq_true_eq] at hm
    rw [Memory.store]
    split
    · split
      · subst v
        rw [Memory.lookup, if_neg (by omega)]
        exact Memory.lookup_below (by omega) hm.2
      · simp [Memory.lookup]
    · split
      · split
        · subst v
          exact Memory.lookup_below (by omega) hm.2
        · simp [Memory.lookup]
      · rw [Memory.lookup, if_neg (by omega)]
        exact ih hm.2

theorem Memory.lookup_store_other {addr other : Nat} (h : other ≠ addr) (m : Memory) (v : Byte) :
    Memory.lookup (Memory.store m addr v) other = Memory.lookup m other := by
  induction m with
  | nil => by_cases hv : v = unfilledByte <;> simp [Memory.store, Memory.lookup, hv, Ne.symm h]
  | cons c rest ih =>
    rw [Memory.store]
    split
    · split
      · rfl
      · rw [Memory.lookup, if_neg (Ne.symm h)]
    · split
      · rename_i heq
        split
        · rw [Memory.lookup, if_neg (by omega)]
        · rw [Memory.lookup, if_neg (Ne.symm h), Memory.lookup, if_neg (by omega)]
      · simp only [Memory.lookup, ih]

theorem Memory.store_wfFrom {low addr : Nat} (hlow : low ≤ addr) (ha : addr < 16) {m : Memory}
    (hm : Memory.wfFrom low m = true) (v : Byte) : Memory.wfFrom low (Memory.store m addr v) = true := by
  induction m generalizing low with
  | nil =>
    by_cases hv : v = unfilledByte <;> simp [Memory.store, Memory.wfFrom, hv, hlow, ha]
  | cons c rest ih =>
    have hc := hm
    simp only [Memory.wfFrom, Bool.and_eq_true, decide_eq_true_eq] at hm
    rw [Memory.store]
    split
    · split
      · exact hc
      · rename_i hk hv
        simp only [Memory.wfFrom, Bool.and_eq_true, decide_eq_true_eq]
        exact ⟨⟨⟨hlow, ha⟩, hv⟩, ⟨⟨by omega, hm.1.1.2⟩, hm.1.2⟩, hm.2⟩
    · split
      · rename_i hk heq
        split
        · exact Memory.wfFrom_mono (by omega) hm.2
        · rename_i hv
          simp only [Memory.wfFrom, Bool.and_eq_true, decide_eq_true_eq]
          exact ⟨⟨⟨hlow, ha⟩, hv⟩, heq ▸ hm.2⟩
      · simp only [Memory.wfFrom, Bool.and_eq_true, decide_eq_true_eq]
        exact ⟨hm.1, ih (by omega) hm.2⟩

/-- A ROM entry written reads back. -/
theorem Memory.read_write_same {m : Memory} (hm : Memory.wf m = true) (addr : Nibble) (v : Byte) :
    Memory.read (Memory.write m addr v) addr = v :=
  Memory.lookup_store_same hm addr.toNat v

/-- A write leaves every other ROM entry alone. -/
theorem Memory.read_write_other {addr other : Nibble} (h : other ≠ addr) (m : Memory) (v : Byte) :
    Memory.read (Memory.write m addr v) other = Memory.read m other :=
  Memory.lookup_store_other (fun hn => h (BitVec.eq_of_toNat_eq hn)) m v

/-- A write keeps the canonical form. -/
theorem Memory.write_wf {m : Memory} (hm : Memory.wf m = true) (addr : Nibble) (v : Byte) :
    Memory.wf (Memory.write m addr v) = true :=
  Memory.store_wfFrom (Nat.zero_le _) addr.isLt hm v

/-- The listed entries of an image are in canonical form. -/
theorem romFrom_wfFrom {low : Nat} {bytes : List Byte} (h : low + bytes.length ≤ 16) :
    Memory.wfFrom low (romFrom low bytes) = true := by
  induction bytes generalizing low with
  | nil => rfl
  | cons b rest ih =>
    rw [List.length_cons] at h
    have hrest := ih (low := low + 1) (by omega)
    rw [romFrom]
    split
    · exact Memory.wfFrom_mono (by omega) hrest
    · rename_i hb
      simp only [Memory.wfFrom, Bool.and_eq_true, decide_eq_true_eq]
      exact ⟨⟨⟨Nat.le_refl _, by omega⟩, hb⟩, hrest⟩

/-- A loaded ROM is in canonical form. -/
theorem loadImage_wf {bytes : List Byte} {m : Memory} (h : loadImage bytes = some m) :
    Memory.wf m = true := by
  rw [loadImage] at h
  split at h
  · rename_i hb
    cases h
    exact romFrom_wfFrom (by simpa [imageWellFormed] using hb)
  · cases h

/-- What any loader loads from a hex image is in canonical form, whatever its mode. -/
theorem loadHexTextWith_wf {mode : HexLoaderMode} {text : List Char} {m : Memory}
    (h : loadHexTextWith mode text = .loaded m) : Memory.wf m = true := by
  rcases loadHexTextWith_cases mode text with ⟨m', ha, hl⟩ | ⟨-, ⟨es, -, hl⟩ | ⟨-, hl⟩ | ⟨-, hl⟩⟩ <;>
    rw [hl] at h <;> cases h
  · rw [admittedHexImage] at ha
    split at ha
    · exact loadImage_wf ha
    · cases ha
  · exact romFrom_wfFrom (by simp)

end Sys2Proof.Machine
end

