-- ==== Sys2Proof/Laws/PerInstr.lean ====
section
/-! SUPPORT. The family EncodeFields, per instruction: the byte of an instruction holds its opcode in bits
7:4 and its nibble in bits 3:0 (spec 30_encoding.md R60). -/

namespace Sys2Proof.Laws.EncodeFields

def Statement (i : Instr) : Prop := opField (encode i) = i.opcode ∧ immField (encode i) = i.lowNibble

theorem fields_of_append : ∀ op n : Nibble, opField (op ++ n) = op ∧ immField (op ++ n) = n := by
  decide

theorem addA (n : Nibble) : Statement (.addA n) := fields_of_append _ _
theorem movAB (n : Nibble) : Statement (.movAB n) := fields_of_append _ _
theorem inA (n : Nibble) : Statement (.inA n) := fields_of_append _ _
theorem movAImm (n : Nibble) : Statement (.movAImm n) := fields_of_append _ _
theorem movBA (n : Nibble) : Statement (.movBA n) := fields_of_append _ _
theorem movBImm (n : Nibble) : Statement (.movBImm n) := fields_of_append _ _
theorem addB (n : Nibble) : Statement (.addB n) := fields_of_append _ _
theorem inB (n : Nibble) : Statement (.inB n) := fields_of_append _ _
theorem nop8 (n : Nibble) : Statement (.nop8 n) := fields_of_append _ _
theorem outB (n : Nibble) : Statement (.outB n) := fields_of_append _ _
theorem outImm (n : Nibble) : Statement (.outImm n) := fields_of_append _ _
theorem nopB (n : Nibble) : Statement (.nopB n) := fields_of_append _ _
theorem nopC (n : Nibble) : Statement (.nopC n) := fields_of_append _ _
theorem nopD (n : Nibble) : Statement (.nopD n) := fields_of_append _ _
theorem jc (n : Nibble) : Statement (.jc n) := fields_of_append _ _
theorem jmp (n : Nibble) : Statement (.jmp n) := fields_of_append _ _

end Sys2Proof.Laws.EncodeFields
end

