-- ==== Sys2Proof/Tests/Slice0.lean ====
section
/-! SUPPORT. The model's own tests. Expected results come from the spec's rules and from the vectors of
spec/95_test_vectors.md (L1, L2), named in each comment; then, for every obligation with hypotheses, a
concrete state and operands that meet them, clause by clause. -/

namespace Sys2Proof.Tests

open Sys2Proof Sys2Proof.Machine

/-! ### WellFormed: each check refuses an ill-formed term -/

theorem test_wf_ignored_nibble_refused : Instr.assemblable (.movAB 5) = false := by decide
theorem test_wf_noop_refused : Instr.assemblable (.nop8 0) = false := by decide
theorem test_wf_long_program_refused : Instr.programAssemblable (List.replicate 17 (.addA 1)) = false := by decide
theorem test_wf_unnameable_program_refused : Instr.programAssemblable [.nopC 0] = false := by decide
theorem test_wf_long_image_refused : imageWellFormed (List.replicate 17 0x01) = false := by decide
theorem test_wf_image_accepted : imageWellFormed (List.replicate 16 0x01) = true := by decide
theorem test_wf_memory_listed_zero_refused : Memory.wf [(3, 0x00)] = false := by decide
theorem test_wf_memory_disorder_refused : Memory.wf [(3, 0x10), (2, 0x10)] = false := by decide
theorem test_wf_memory_beyond_rom_refused : Memory.wf [(16, 0x10)] = false := by decide
/-- No encoding is illegal (R65): the instruction check refuses nothing, so there is no ill-formed term. -/
theorem test_wf_every_instruction_legal (i : Instr) : i.wellFormed = true := by cases i <;> rfl

/-! ### Decoding: bytes written out from the opcode map R63, bit by bit -/

/-- ADD A, 8 (R120). -/
theorem test_decode_addA : decodeTableWord 8 0b00001000 = some (.addA 8) := by decide
/-- MOV A, B with an ignored nibble (R130). -/
theorem test_decode_movAB : decodeTableWord 8 0b00011111 = some (.movAB 15) := by decide
/-- IN A (R140). -/
theorem test_decode_inA : decodeTableWord 8 0b00100000 = some (.inA 0) := by decide
/-- MOV A, 7 (R131). -/
theorem test_decode_movAImm : decodeTableWord 8 0b00110111 = some (.movAImm 7) := by decide
/-- MOV B, A (M4). -/
theorem test_decode_movBA : decodeTableWord 8 0b01001010 = some (.movBA 10) := by decide
/-- MOV B, 5 (R133). -/
theorem test_decode_movBImm : decodeTableWord 8 0b01010101 = some (.movBImm 5) := by decide
/-- ADD B, 3 (R121). -/
theorem test_decode_addB : decodeTableWord 8 0b01100011 = some (.addB 3) := by decide
/-- IN B (I7). -/
theorem test_decode_inB : decodeTableWord 8 0b01110010 = some (.inB 2) := by decide
/-- NOP8 (R160). -/
theorem test_decode_nop8 : decodeTableWord 8 0b10001100 = some (.nop8 12) := by decide
/-- OUT B (R142). -/
theorem test_decode_outB : decodeTableWord 8 0b10010000 = some (.outB 0) := by decide
/-- OUT 5 (R143). -/
theorem test_decode_outImm : decodeTableWord 8 0b10100101 = some (.outImm 5) := by decide
/-- NOPB (R161). -/
theorem test_decode_nopB : decodeTableWord 8 0b10110011 = some (.nopB 3) := by decide
/-- NOPC (R162). -/
theorem test_decode_nopC : decodeTableWord 8 0b11001111 = some (.nopC 15) := by decide
/-- NOPD (R163). -/
theorem test_decode_nopD : decodeTableWord 8 0b11010000 = some (.nopD 0) := by decide
/-- JC 5 (R150). -/
theorem test_decode_jc : decodeTableWord 8 0b11100101 = some (.jc 5) := by decide
/-- JMP 2 (R151). -/
theorem test_decode_jmp : decodeTableWord 8 0b11110010 = some (.jmp 2) := by decide
theorem test_decode_no_bytes : decodeBytes [] = .error .noByte := by rfl
theorem test_decode_two_bytes : decodeBytes [0x10, 0x20] = .error .moreThanOneByte := by rfl

/-! ### One step on a small state -/

/-- A running core with these registers and this byte at `pc`; nothing attached. -/
def core1 (a b inLatch out : Nibble) (carry : Bool) (pc : Nibble) (byte : Nat) : State :=
  ({ State.reset with a := a, b := b, inLatch := inLatch, out := out, carry := carry, pc := pc } : State).withFetchWord 8 byte

/-- The view after one step, if it answers a next state. -/
def viewAfter (s : State) : Option View :=
  match step s with
  | .next t => some t.view
  | .fault _ => none
  | .refused _ => none

/-- What one step adds to the trace. -/
def traceAfter (s : State) : List TraceRecord :=
  match step s with
  | .next t => t.traceLog
  | .fault _ => []
  | .refused _ => []

/-- A7: the old carry is not added, and is cleared. -/
theorem test_addA_no_carry_in :
    viewAfter (core1 3 0 0 0 true 0 0x02) =
      some ⟨5, 0, 0, 0, false, 1, .running⟩ := by decide
/-- A2 and A13 together: a wraps with carry, pc wraps from 15. -/
theorem test_addA_wraps_at_top_address :
    viewAfter (core1 15 0 0 0 false 15 0x01) =
      some ⟨0, 0, 0, 0, true, 0, .running⟩ := by decide
/-- A10. -/
theorem test_addB_does_not_touch_a :
    viewAfter (core1 2 15 0 0 false 0 0x61) =
      some ⟨2, 0, 0, 0, true, 1, .running⟩ := by decide
/-- R121 with the sum exactly 16 (A5 with b in place of a). -/
theorem test_addB_sum_16 :
    viewAfter (core1 0 8 0 0 false 0 0x68) =
      some ⟨0, 0, 0, 0, true, 1, .running⟩ := by decide
/-- M2. -/
theorem test_movAB_ignores_nibble :
    viewAfter (core1 3 12 0 0 false 0 0x1F) =
      some ⟨12, 12, 0, 0, false, 1, .running⟩ := by decide
/-- M5. -/
theorem test_movAImm_keeps_carry :
    viewAfter (core1 9 0 0 0 true 0 0x30) =
      some ⟨0, 0, 0, 0, true, 1, .running⟩ := by decide
/-- M4. -/
theorem test_movBA_ignores_nibble :
    viewAfter (core1 6 0 0 0 false 0 0x4A) =
      some ⟨6, 6, 0, 0, false, 1, .running⟩ := by decide
/-- M8. -/
theorem test_movBImm_keeps_carry :
    viewAfter (core1 0 9 0 0 true 0 0x55) =
      some ⟨0, 5, 0, 0, true, 1, .running⟩ := by decide
/-- I1. -/
theorem test_inA_reads_and_latches :
    viewAfter ((core1 0 0 0 0 false 0 0x20).attach true false [.value 11] []) =
      some ⟨11, 0, 11, 0, false, 1, .running⟩ := by decide
/-- I5. -/
theorem test_inA_exhausted :
    viewAfter ((core1 4 0 2 0 true 5 0x20).attach true false [.exhausted] []) =
      some ⟨4, 0, 2, 0, true, 5, .aborted .inputExhausted⟩ := by decide
/-- I7. -/
theorem test_inB_line_fails_writes_kept :
    viewAfter ((core1 0 0 0 0 false 0 0x72).attach true true [.value 10] [.ok, .fail]) =
      some ⟨0, 10, 10, 0, false, 0, .aborted .outputFailure⟩ := by decide
/-- I4 and R141: no read, the latch is copied. -/
theorem test_inB_detached_copies_latch :
    viewAfter (core1 0 9 0 0 false 0 0x70) =
      some ⟨0, 0, 0, 0, false, 1, .running⟩ := by decide
/-- I13. -/
theorem test_outB_line_fails_out_kept :
    viewAfter ((core1 0 7 0 0 false 4 0x90).attach false true [] [.fail]) =
      some ⟨0, 7, 0, 7, false, 4, .aborted .outputFailure⟩ := by decide
/-- I10. -/
theorem test_outB_ignores_nibble :
    viewAfter (core1 0 8 0 3 false 0 0x9C) =
      some ⟨0, 8, 0, 8, false, 1, .running⟩ := by decide
/-- I12. -/
theorem test_outImm_clears_port :
    viewAfter (core1 0 0 0 9 false 0 0xA0) =
      some ⟨0, 0, 0, 0, false, 1, .running⟩ := by decide
/-- J3. -/
theorem test_jc_not_taken_wraps :
    viewAfter (core1 0 0 0 0 false 15 0xE5) =
      some ⟨0, 0, 0, 0, false, 0, .running⟩ := by decide
/-- J10. -/
theorem test_jc_taken_not_committed :
    viewAfter ((core1 0 0 0 0 true 3 0xE5).attach false true [] [.fail]) =
      some ⟨0, 0, 0, 0, true, 3, .aborted .outputFailure⟩ := by decide
/-- J7. -/
theorem test_jmp_ignores_carry :
    viewAfter (core1 0 0 0 0 true 3 0xF2) =
      some ⟨0, 0, 0, 0, true, 2, .running⟩ := by decide
/-- N2. -/
theorem test_nop8_only_pc :
    viewAfter (core1 1 2 3 4 true 7 0x8C) =
      some ⟨1, 2, 3, 4, true, 8, .running⟩ := by decide
/-- N3. -/
theorem test_nopB_wraps :
    viewAfter (core1 1 2 3 4 true 15 0xB3) =
      some ⟨1, 2, 3, 4, true, 0, .running⟩ := by decide
/-- N4. -/
theorem test_nopC_only_pc :
    viewAfter (core1 1 2 3 4 true 7 0xCF) =
      some ⟨1, 2, 3, 4, true, 8, .running⟩ := by decide
/-- N5. -/
theorem test_nopD_only_pc :
    viewAfter (core1 1 2 3 4 true 7 0xD0) =
      some ⟨1, 2, 3, 4, true, 8, .running⟩ := by decide
/-- I6: the prompt fails before the read, so no answer is used up. -/
theorem test_prompt_fails_no_read :
    viewAfter ((core1 4 0 2 0 false 5 0x20).attach true true [.value 1] [.fail]) =
      some ⟨4, 0, 2, 0, false, 5, .aborted .outputFailure⟩ ∧
    (match step ((core1 4 0 2 0 false 5 0x20).attach true true [.value 1] [.fail]) with
      | .next t => t.inReads
      | .fault _ => 9
      | .refused _ => 9) = 0 := by decide
/-- I8: the prompt, then the line with the fields after the step. -/
theorem test_trace_of_in :
    traceAfter ((core1 0 0 0 0 false 0 0x20).attach true true [.value 1] [.ok, .ok]) =
      [⟨.prompt, .ok⟩, ⟨.line ⟨0, 2, 0, 1, 0, 0, false⟩, .ok⟩] := by decide
/-- W11: the line of step 2 of the source's program. -/
theorem test_trace_of_addB :
    traceAfter ((core1 0 5 0 0 false 1 0x63).attach false true [] [.ok]) =
      [⟨.line ⟨1, 6, 3, 0, 8, 0, false⟩, .ok⟩] := by decide
/-- I14: no input attached, so no prompt and no read. -/
theorem test_trace_of_in_detached :
    traceAfter ((core1 0 0 5 0 false 0 0x20).attach false true [] [.ok]) =
      [⟨.line ⟨0, 2, 0, 5, 0, 0, false⟩, .ok⟩] := by decide
/-- S1: a step after an abort is refused. -/
theorem test_step_after_abort :
    step ((core1 0 0 0 0 false 0 0x20).abort .inputExhausted) = .refused (.stepAfterAbort .inputExhausted) := by
  rfl
/-- S2, S3: after a reset the core runs again, with the same ROM. -/
theorem test_reset_after_abort :
    viewAfter (((core1 0 10 10 0 false 0 0x72).abort .outputFailure).attach true true [.value 3] [.ok, .ok]).applyReset =
      some ⟨0, 3, 3, 0, false, 1, .running⟩ := by decide
/-- The prompt's text (R103). -/
theorem test_prompt_text : TraceText.render .prompt = ['I', 'N', ':', ' '] := by decide

/-! ### The assembler and the images (L1, L2 X1 to X27) -/

theorem test_asm_comma : asmLine "mov b,5".toList = .emit (.movBImm 5) := by decide
theorem test_asm_space : asmLine "mov b 5".toList = .emit (.movBImm 5) := by decide
theorem test_asm_masked : asmLine "add a,255".toList = .emit (.addA 15) := by decide
theorem test_asm_comment_cut : asmLine "out 15 ; x".toList = .emit (.outImm 15) := by decide
theorem test_asm_out_a : asmLine "out a".toList = .error .registerOperand := by decide
theorem test_asm_bad_register : asmLine "add c, 1".toList = .error .registerOperand := by decide
theorem test_asm_operand_count : asmLine "jmp 1 2".toList = .error .operandCount := by decide
theorem test_asm_unknown : asmLine "nop".toList = .error (.unknownMnemonic "nop".toList) := by decide
theorem test_asm_empty : asmLine [] = .skip := by decide
theorem test_asm_capital : asmLine "MOV a, 1".toList = .notAdmitted .asmCaseMode := by decide
theorem test_asm_hex : asmLine "mov a, 0x5".toList = .notAdmitted .asmNumericSyntax := by decide
/-- X25 under the two values of `ASM_CASE_MODE` (R74): folded, it is `mov a, 1`; as it stands, `MOV` is no
mnemonic (R82). -/
theorem test_asm_capital_by_tool :
    asmLineWith ⟨some .fold, fun _ => .error⟩ "MOV a, 1".toList = .emit (.movAImm 1) ∧
    asmLineWith ⟨some .faithful, fun _ => .error⟩ "MOV a, 1".toList =
      .error (.unknownMnemonic "MOV a, 1".toList) := by decide
/-- X26 under two values of `ASM_NUMERIC_SYNTAX` (R84): a tool that reads 5, and one that takes an error. -/
theorem test_asm_hex_by_tool :
    asmLineWith ⟨none, fun _ => .value 5⟩ "mov a, 0x5".toList = .emit (.movAImm 5) ∧
    asmLineWith ⟨none, fun _ => .error⟩ "mov a, 0x5".toList = .error .numericOperand := by decide
/-- R253, D18: a token above 0xFF, by what `HEX_LOADER_MODE` says: the loader fills the ROM, or fails. -/
theorem test_load_hex_by_mode :
    loadHexTextWith (fun _ => .filled (Vector.replicate 16 0x01)) "0x155".toList =
      .loaded (romFrom 0 (List.replicate 16 0x01)) ∧
    loadHexTextWith (fun _ => .failed) "0x155".toList = .failed := by decide
theorem test_asm_mov_a_a : asmLine "mov a, a".toList = .notAdmitted .asmNumericSyntax := by decide
theorem test_asm_commas : asmLine "add a,,1".toList = .notAdmitted .separators := by decide
theorem test_asm_four_fields : asmLine "mov a 1 2".toList = .notAdmitted .fieldCount := by decide
/-- W8: the source's program. -/
theorem test_asm_program : assemble "mov b,5\nadd b,3\nout b\njmp 2".toList =
    .assembled { State.reset with rom := [(0, 0x55), (1, 0x63), (2, 0x90), (3, 0xF2)] } := by decide
/-- The multi-line vector after X27. -/
theorem test_asm_error_line : assemble "mov a, 1\nbogus\nout b".toList =
    .failed (.syntaxError 2 (.unknownMnemonic "bogus".toList)) := by decide
/-- W5: physical line numbers count blank and comment lines. -/
theorem test_asm_capacity : asmFrom 1 [] ([] :: "; comment".toList :: List.replicate 17 "add a, 1".toList) =
    .failed (.capacityError 19) := by decide
/-- W12: the first lines of the dump of the source's program. -/
theorem test_dump : dumpBytes [0x55, 0x05, 0x00] = "0x55,\n0x5,\n0x0,\n".toList := by decide
theorem test_load_hex : loadHexText "0x55, 0x63 0x0,\n0xF2".toList = .loaded [(0, 0x55), (1, 0x63), (3, 0xF2)] := by
  decide
/-- R253: hex digits of either case are hexadecimal digits. -/
theorem test_load_hex_lowercase : loadHexText "0xa5".toList = .loaded [(0, 0xA5)] := by decide
theorem test_load_hex_malformed : loadHexText "0x155".toList = .notAdmitted := by decide

/-! ### Witnesses: states and operands that meet the hypotheses of the obligations -/

/-- Every register at its top value, at the top address; nothing attached. -/
def edge (byte : Nat) : State := core1 15 15 15 15 true 15 byte
/-- The same with a trace whose answers are listed. -/
def traced (byte : Nat) (answers : List TraceAnswer) : State := (edge byte).attach false true [] answers
/-- The same with an input stream, and a trace where wanted. -/
def fed (byte : Nat) (trace : Bool) (ins : List InAnswer) (answers : List TraceAnswer) : State :=
  (edge byte).attach true trace ins answers

theorem witness_IgnoredNibbleExecutesAlike :
    (Instr.nopD 0).opcode = (Instr.nopD 15).opcode ∧
    (Instr.nopD 0).opcode ∈ [0x1#4, 0x2#4, 0x4#4, 0x7#4, 0x8#4, 0x9#4, 0xB#4, 0xC#4, 0xD#4] := by decide

theorem witness_AddAImmAddsAndSetsCarry :
    decode (fetch (edge 0x0F)) = .addA 15 ∧ (edge 0x0F).status = .running ∧
    (traced 0x0F [.ok]).status = .running ∧ (traced 0x0F [.fail]).status = .running ∧
    ((traced 0x0F [.ok]).traceAttached = true → (traced 0x0F [.ok]).traceAnswerAt 0 = .ok) ∧
    ((traced 0x0F [.fail]).traceAttached = true ∧ (traced 0x0F [.fail]).traceAnswerAt 0 = .fail) := by decide
theorem witness_MovABCopiesB :
    decode (fetch (edge 0x1F)) = .movAB 15 ∧ (edge 0x1F).status = .running ∧
    (traced 0x1F [.ok]).status = .running ∧ (traced 0x1F [.fail]).status = .running ∧
    ((traced 0x1F [.ok]).traceAttached = true → (traced 0x1F [.ok]).traceAnswerAt 0 = .ok) ∧
    ((traced 0x1F [.fail]).traceAttached = true ∧ (traced 0x1F [.fail]).traceAnswerAt 0 = .fail) := by decide
theorem witness_MovAImmLoadsA :
    decode (fetch (edge 0x3F)) = .movAImm 15 ∧ (edge 0x3F).status = .running ∧
    (traced 0x3F [.ok]).status = .running ∧ (traced 0x3F [.fail]).status = .running ∧
    ((traced 0x3F [.ok]).traceAttached = true → (traced 0x3F [.ok]).traceAnswerAt 0 = .ok) ∧
    ((traced 0x3F [.fail]).traceAttached = true ∧ (traced 0x3F [.fail]).traceAnswerAt 0 = .fail) := by decide
theorem witness_MovBACopiesA :
    decode (fetch (edge 0x4F)) = .movBA 15 ∧ (edge 0x4F).status = .running ∧
    (traced 0x4F [.ok]).status = .running ∧ (traced 0x4F [.fail]).status = .running ∧
    ((traced 0x4F [.ok]).traceAttached = true → (traced 0x4F [.ok]).traceAnswerAt 0 = .ok) ∧
    ((traced 0x4F [.fail]).traceAttached = true ∧ (traced 0x4F [.fail]).traceAnswerAt 0 = .fail) := by decide
theorem witness_MovBImmLoadsB :
    decode (fetch (edge 0x5F)) = .movBImm 15 ∧ (edge 0x5F).status = .running ∧
    (traced 0x5F [.ok]).status = .running ∧ (traced 0x5F [.fail]).status = .running ∧
    ((traced 0x5F [.ok]).traceAttached = true → (traced 0x5F [.ok]).traceAnswerAt 0 = .ok) ∧
    ((traced 0x5F [.fail]).traceAttached = true ∧ (traced 0x5F [.fail]).traceAnswerAt 0 = .fail) := by decide
theorem witness_AddBImmAddsAndSetsCarry :
    decode (fetch (edge 0x6F)) = .addB 15 ∧ (edge 0x6F).status = .running ∧
    (traced 0x6F [.ok]).status = .running ∧ (traced 0x6F [.fail]).status = .running ∧
    ((traced 0x6F [.ok]).traceAttached = true → (traced 0x6F [.ok]).traceAnswerAt 0 = .ok) ∧
    ((traced 0x6F [.fail]).traceAttached = true ∧ (traced 0x6F [.fail]).traceAnswerAt 0 = .fail) := by decide
theorem witness_OutBDrivesOutput :
    decode (fetch (edge 0x9F)) = .outB 15 ∧ (edge 0x9F).status = .running ∧
    (traced 0x9F [.ok]).status = .running ∧ (traced 0x9F [.fail]).status = .running ∧
    ((traced 0x9F [.ok]).traceAttached = true → (traced 0x9F [.ok]).traceAnswerAt 0 = .ok) ∧
    ((traced 0x9F [.fail]).traceAttached = true ∧ (traced 0x9F [.fail]).traceAnswerAt 0 = .fail) := by decide
theorem witness_OutImmDrivesOutput :
    decode (fetch (edge 0xAF)) = .outImm 15 ∧ (edge 0xAF).status = .running ∧
    (traced 0xAF [.ok]).status = .running ∧ (traced 0xAF [.fail]).status = .running ∧
    ((traced 0xAF [.ok]).traceAttached = true → (traced 0xAF [.ok]).traceAnswerAt 0 = .ok) ∧
    ((traced 0xAF [.fail]).traceAttached = true ∧ (traced 0xAF [.fail]).traceAnswerAt 0 = .fail) := by decide
theorem witness_JcJumpsExactlyOnCarry :
    decode (fetch (edge 0xEF)) = .jc 15 ∧ (edge 0xEF).status = .running ∧
    (traced 0xEF [.ok]).status = .running ∧ (traced 0xEF [.fail]).status = .running ∧
    ((traced 0xEF [.ok]).traceAttached = true → (traced 0xEF [.ok]).traceAnswerAt 0 = .ok) ∧
    ((traced 0xEF [.fail]).traceAttached = true ∧ (traced 0xEF [.fail]).traceAnswerAt 0 = .fail) := by decide
theorem witness_JmpAlwaysJumps :
    decode (fetch (edge 0xFF)) = .jmp 15 ∧ (edge 0xFF).status = .running ∧
    (traced 0xFF [.ok]).status = .running ∧ (traced 0xFF [.fail]).status = .running ∧
    ((traced 0xFF [.ok]).traceAttached = true → (traced 0xFF [.ok]).traceAnswerAt 0 = .ok) ∧
    ((traced 0xFF [.fail]).traceAttached = true ∧ (traced 0xFF [.fail]).traceAnswerAt 0 = .fail) := by decide
theorem witness_Nop8OnlyAdvancesPc :
    decode (fetch (edge 0x8F)) = .nop8 15 ∧ (edge 0x8F).status = .running ∧
    (traced 0x8F [.ok]).status = .running ∧ (traced 0x8F [.fail]).status = .running ∧
    ((traced 0x8F [.ok]).traceAttached = true → (traced 0x8F [.ok]).traceAnswerAt 0 = .ok) ∧
    ((traced 0x8F [.fail]).traceAttached = true ∧ (traced 0x8F [.fail]).traceAnswerAt 0 = .fail) := by decide
theorem witness_NopBOnlyAdvancesPc :
    decode (fetch (edge 0xBF)) = .nopB 15 ∧ (edge 0xBF).status = .running ∧
    (traced 0xBF [.ok]).status = .running ∧ (traced 0xBF [.fail]).status = .running ∧
    ((traced 0xBF [.ok]).traceAttached = true → (traced 0xBF [.ok]).traceAnswerAt 0 = .ok) ∧
    ((traced 0xBF [.fail]).traceAttached = true ∧ (traced 0xBF [.fail]).traceAnswerAt 0 = .fail) := by decide
theorem witness_NopCOnlyAdvancesPc :
    decode (fetch (edge 0xCF)) = .nopC 15 ∧ (edge 0xCF).status = .running ∧
    (traced 0xCF [.ok]).status = .running ∧ (traced 0xCF [.fail]).status = .running ∧
    ((traced 0xCF [.ok]).traceAttached = true → (traced 0xCF [.ok]).traceAnswerAt 0 = .ok) ∧
    ((traced 0xCF [.fail]).traceAttached = true ∧ (traced 0xCF [.fail]).traceAnswerAt 0 = .fail) := by decide
theorem witness_NopDOnlyAdvancesPc :
    decode (fetch (edge 0xDF)) = .nopD 15 ∧ (edge 0xDF).status = .running ∧
    (traced 0xDF [.ok]).status = .running ∧ (traced 0xDF [.fail]).status = .running ∧
    ((traced 0xDF [.ok]).traceAttached = true → (traced 0xDF [.ok]).traceAnswerAt 0 = .ok) ∧
    ((traced 0xDF [.fail]).traceAttached = true ∧ (traced 0xDF [.fail]).traceAnswerAt 0 = .fail) := by decide
theorem witness_InAReadsLatchesAndCopies_detached :
    (edge 0x2F).status = .running ∧ (edge 0x2F).inputAttached = false ∧
    ((edge 0x2F).traceAttached = true → (edge 0x2F).traceAnswerAt 0 = .ok) ∧
    ((traced 0x2F [.fail]).status = .running ∧ (traced 0x2F [.fail]).inputAttached = false ∧
      (traced 0x2F [.fail]).traceAttached = true ∧ (traced 0x2F [.fail]).traceAnswerAt 0 = .fail) := by decide
theorem witness_InAReadsLatchesAndCopies_value :
    let s := fed 0x2F true [.value 15] [.ok, .ok]
    let q := fed 0x2F false [.value 0] []
    let f := fed 0x2F true [.value 15] [.ok, .fail]
    (s.status = .running ∧ s.inputAttached = true ∧ s.inAnswerAt 0 = .value 15 ∧
      (s.traceAttached = true → s.traceAnswerAt 0 = .ok ∧ s.traceAnswerAt 1 = .ok)) ∧
    (q.status = .running ∧ q.inputAttached = true ∧ q.inAnswerAt 0 = .value 0 ∧
      (q.traceAttached = true → q.traceAnswerAt 0 = .ok ∧ q.traceAnswerAt 1 = .ok)) ∧
    (f.status = .running ∧ f.inputAttached = true ∧ f.inAnswerAt 0 = .value 15 ∧ f.traceAttached = true ∧
      f.traceAnswerAt 0 = .ok ∧ f.traceAnswerAt 1 = .fail) := by decide
theorem witness_InAReadsLatchesAndCopies_aborts :
    let e := fed 0x2F true [.exhausted] [.ok]
    let p := fed 0x2F true [.value 1] [.fail]
    (e.status = .running ∧ e.inputAttached = true ∧ e.inAnswerAt 0 = .exhausted ∧
      (e.traceAttached = true → e.traceAnswerAt 0 = .ok)) ∧
    (p.status = .running ∧ p.inputAttached = true ∧ p.traceAttached = true ∧ p.traceAnswerAt 0 = .fail) := by
  decide
theorem witness_InBReadsLatchesAndCopies_detached :
    (edge 0x7F).status = .running ∧ (edge 0x7F).inputAttached = false ∧
    ((edge 0x7F).traceAttached = true → (edge 0x7F).traceAnswerAt 0 = .ok) ∧
    ((traced 0x7F [.fail]).status = .running ∧ (traced 0x7F [.fail]).inputAttached = false ∧
      (traced 0x7F [.fail]).traceAttached = true ∧ (traced 0x7F [.fail]).traceAnswerAt 0 = .fail) := by decide
theorem witness_InBReadsLatchesAndCopies_value :
    let s := fed 0x7F true [.value 15] [.ok, .ok]
    let q := fed 0x7F false [.value 0] []
    let f := fed 0x7F true [.value 15] [.ok, .fail]
    (s.status = .running ∧ s.inputAttached = true ∧ s.inAnswerAt 0 = .value 15 ∧
      (s.traceAttached = true → s.traceAnswerAt 0 = .ok ∧ s.traceAnswerAt 1 = .ok)) ∧
    (q.status = .running ∧ q.inputAttached = true ∧ q.inAnswerAt 0 = .value 0 ∧
      (q.traceAttached = true → q.traceAnswerAt 0 = .ok ∧ q.traceAnswerAt 1 = .ok)) ∧
    (f.status = .running ∧ f.inputAttached = true ∧ f.inAnswerAt 0 = .value 15 ∧ f.traceAttached = true ∧
      f.traceAnswerAt 0 = .ok ∧ f.traceAnswerAt 1 = .fail) := by decide
theorem witness_InBReadsLatchesAndCopies_aborts :
    let e := fed 0x7F true [.exhausted] [.ok]
    let p := fed 0x7F true [.value 1] [.fail]
    (e.status = .running ∧ e.inputAttached = true ∧ e.inAnswerAt 0 = .exhausted ∧
      (e.traceAttached = true → e.traceAnswerAt 0 = .ok)) ∧
    (p.status = .running ∧ p.inputAttached = true ∧ p.traceAttached = true ∧ p.traceAnswerAt 0 = .fail) := by
  decide
theorem witness_StepRunsTheDecodedInstruction :
    decode (Memory.read (edge 0xFF).rom (edge 0xFF).pc) = .jmp 15 := by decide
theorem witness_NoStepAfterAbortUntilReset :
    ((edge 0x20).abort .inputExhausted).status = .aborted .inputExhausted := by decide
theorem witness_AbortLeavesExactState_prompt :
    let s := fed 0x2F true [.value 15] [.fail]
    s.status = .running ∧ (Instr.inA 15).isIn = true ∧ s.inputAttached = true ∧ s.traceAttached = true ∧
      s.traceAnswerAt 0 = .fail := by decide
theorem witness_AbortLeavesExactState_read :
    let s := fed 0x7F false [.exhausted] []
    s.status = .running ∧ (Instr.inB 15).isIn = true ∧ s.inputAttached = true ∧
      (s.traceAttached = true → s.traceAnswerAt 0 = .ok) ∧ s.inAnswerAt 0 = .exhausted := by decide
theorem witness_AbortLeavesExactState_line :
    let s := traced 0x0F [.fail]
    let n := traced 0x2F [.fail]
    (s.status = .running ∧ ((Instr.addA 15).isIn = false ∨ s.inputAttached = false) ∧
      s.traceAttached = true ∧ s.traceAnswerAt 0 = .fail) ∧
    (n.status = .running ∧ ((Instr.inA 15).isIn = false ∨ n.inputAttached = false) ∧
      n.traceAttached = true ∧ n.traceAnswerAt 0 = .fail) := by decide
theorem witness_AbortLeavesExactState_lineAfterRead :
    let s := fed 0x2F true [.value 15] [.ok, .fail]
    s.status = .running ∧ (Instr.inA 15).isIn = true ∧ s.inputAttached = true ∧ s.inAnswerAt 0 = .value 15 ∧
      s.traceAttached = true ∧ s.traceAnswerAt 0 = .ok ∧ s.traceAnswerAt 1 = .fail := by decide
theorem witness_OnlyTwoAbnormalEnds : (fed 0x2F true [.exhausted] [.ok]).status = .running := by decide
/-- Both clauses of the pc rule are met: a completed step and an aborted one. -/
theorem witness_PcIsCommittedByCompletedStepsOnly :
    (edge 0xE3).status = .running ∧
    (viewAfter (edge 0xE3)).map View.status = some .running ∧
    (viewAfter (traced 0xE3 [.fail])).map View.status = some (.aborted .outputFailure) := by decide
/-- An instruction that is not a writer, and one that is not a reader, both answering a next state. -/
theorem witness_RegisterAWritersAndReaders :
    (viewAfter (edge 0x4F)).isSome = true ∧ (Instr.movBA 15).opcode ∉ [0x0#4, 0x1#4, 0x2#4, 0x3#4] ∧
    (edge 0x1F).status = .running ∧ (Instr.movAB 15).opcode ∉ [0x0#4, 0x4#4] ∧
    (Instr.movAB 15).opcode ∈ [0x1#4, 0x3#4] := by decide
/-- `IN A`, whose phase 2 goes on: no stream attached, and one that answers a value after its prompt. -/
theorem witness_RegisterAWritersAndReaders_in :
    (Instr.inA 15).opcode ∉ [0x0#4, 0x4#4] ∧ (Instr.inA 15).opcode = 0x2#4 ∧
    (edge 0x2F).status = .running ∧ InputPhaseGoesOn (edge 0x2F) ∧
    (fed 0x2F true [.value 15] [.ok, .fail]).status = .running ∧
    InputPhaseGoesOn (fed 0x2F true [.value 15] [.ok, .fail]) :=
  ⟨by decide, rfl, rfl, fun h => absurd h (by decide), rfl, fun _ => ⟨fun _ => by decide, 15, by decide⟩⟩
theorem witness_RegisterBWritersAndReaders :
    (viewAfter (edge 0x9F)).isSome = true ∧ (Instr.outB 15).opcode ∉ [0x4#4, 0x5#4, 0x6#4, 0x7#4] ∧
    (edge 0x4F).status = .running ∧ (Instr.movBA 15).opcode ∉ [0x1#4, 0x6#4, 0x9#4] ∧
    (Instr.movBA 15).opcode ∈ [0x4#4, 0x5#4] := by decide
/-- `IN B`, whose phase 2 goes on. -/
theorem witness_RegisterBWritersAndReaders_in :
    (Instr.inB 15).opcode ∉ [0x1#4, 0x6#4, 0x9#4] ∧ (Instr.inB 15).opcode = 0x7#4 ∧
    (edge 0x7F).status = .running ∧ InputPhaseGoesOn (edge 0x7F) ∧
    (fed 0x7F true [.value 15] [.ok, .fail]).status = .running ∧
    InputPhaseGoesOn (fed 0x7F true [.value 15] [.ok, .fail]) :=
  ⟨by decide, rfl, rfl, fun h => absurd h (by decide), rfl, fun _ => ⟨fun _ => by decide, 15, by decide⟩⟩
theorem witness_CarryWrittenByAddsReadByJc :
    (viewAfter (edge 0xEF)).isSome = true ∧ (Instr.jc 15).opcode ∉ [0x0#4, 0x6#4] ∧
    (edge 0x0F).status = .running ∧ (Instr.addA 15).opcode ∉ [0xE#4] ∧
    (Instr.addA 15).opcode ∈ [0x0#4, 0x6#4] := by decide
theorem witness_InputLatchWritersAndReaders :
    (viewAfter (edge 0x3F)).isSome = true ∧ (Instr.movAImm 15).opcode ∉ [0x2#4, 0x7#4] ∧
    (edge 0x3F).status = .running ∧
    ((viewAfter (edge 0x2F)).isSome = true ∧ (Instr.inA 15).isIn = true ∧ (edge 0x2F).inputAttached = false) := by
  decide
theorem witness_InputLatchWritersAndReaders_value :
    let s := fed 0x7F true [.value 15] [.ok, .ok]
    (viewAfter s).isSome = true ∧ (Instr.inB 15).isIn = true ∧ s.inputAttached = true ∧
      s.inAnswerAt 0 = .value 15 ∧ (s.traceAttached = true → s.traceAnswerAt 0 = .ok) := by decide
/-- A failed prompt with a value pending, and an exhausted read. -/
theorem witness_InputLatchWritersAndReaders_noValue :
    let p := fed 0x2F true [.value 0] [.fail]
    let e := fed 0x2F false [.exhausted] []
    (viewAfter p = some ⟨15, 15, 15, 15, true, 15, .aborted .outputFailure⟩ ∧ (Instr.inA 15).isIn = true ∧
      p.inputAttached = true ∧ p.traceAttached = true ∧ p.traceAnswerAt 0 = .fail ∧
      p.inAnswerAt 0 = .value 0) ∧
    (viewAfter e = some ⟨15, 15, 15, 15, true, 15, .aborted .inputExhausted⟩ ∧ e.inputAttached = true ∧
      e.inAnswerAt 0 = .exhausted) := by decide
theorem witness_OutputLatchWrittenByOutReadByNone :
    (viewAfter (edge 0x8F)).isSome = true ∧ (Instr.nop8 15).opcode ∉ [0x9#4, 0xA#4] ∧
    (edge 0xAF).status = .running ∧ (Instr.outImm 15).opcode ∈ [0x9#4, 0xA#4] := by decide
theorem witness_TraceWritesOfAStep :
    (edge 0x2F).status = .running ∧ (edge 0x2F).traceAttached = false ∧
    ((traced 0x2F [.ok]).traceAttached = true ∧ (traced 0x2F [.ok]).inputAttached = false) ∧
    ((fed 0x2F true [] [.fail]).traceAttached = true ∧ (fed 0x2F true [] [.fail]).traceAnswerAt 0 = .fail) ∧
    ((fed 0x2F true [.exhausted] [.ok]).traceAnswerAt 0 = .ok ∧
      (fed 0x2F true [.exhausted] [.ok]).inAnswerAt 0 = .exhausted) ∧
    ((fed 0x2F true [.value 15] [.ok, .fail]).traceAnswerAt 0 = .ok ∧
      (fed 0x2F true [.value 15] [.ok, .fail]).inAnswerAt 0 = .value 15) := by decide
theorem witness_MovPairLeavesBothAsB :
    (traced 0x1F [.ok, .ok]).status = .running ∧
    ((traced 0x1F [.ok, .ok]).traceAttached = true →
      (traced 0x1F [.ok, .ok]).traceAnswerAt 0 = .ok ∧ (traced 0x1F [.ok, .ok]).traceAnswerAt 1 = .ok) := by decide
theorem witness_AddThenJcTestsTheSum :
    (traced 0x0F [.ok, .ok]).status = .running ∧
    ((traced 0x0F [.ok, .ok]).traceAttached = true →
      (traced 0x0F [.ok, .ok]).traceAnswerAt 0 = .ok ∧ (traced 0x0F [.ok, .ok]).traceAnswerAt 1 = .ok) := by decide
theorem witness_AddOfComplementSubtracts :
    (traced 0x01 [.ok]).status = .running ∧
    ((traced 0x01 [.ok]).traceAttached = true → (traced 0x01 [.ok]).traceAnswerAt 0 = .ok) ∧
    (1 ≤ 1 ∧ 1 ≤ 15) ∧ (1 ≤ 15 ∧ 15 ≤ 15) := by decide
theorem witness_JumpToItselfRepeatsForever :
    ((edge 0xFF).status = .running ∧ (edge 0xFF).traceAttached = false ∧
      decode (Memory.read (edge 0xFF).rom (edge 0xFF).pc) = .jmp (edge 0xFF).pc) ∧
    ((edge 0xEF).status = .running ∧ (edge 0xEF).traceAttached = false ∧
      decode (Memory.read (edge 0xEF).rom (edge 0xEF).pc) = .jc (edge 0xEF).pc ∧ (edge 0xEF).carry = true) := by
  decide
theorem witness_DetachedRunNeverStops :
    State.reset.status = .running ∧ State.reset.inputAttached = false ∧ State.reset.traceAttached = false := by
  decide
theorem witness_DetachedStepStaysRunningAndDetached :
    (edge 0x2F).status = .running ∧ (edge 0x2F).inputAttached = false ∧ (edge 0x2F).traceAttached = false := by
  decide
theorem witness_RomAndConfigurationAreConstant : (fed 0x2F true [.exhausted] [.ok]).status = .running := by decide
/-- A state with the invariant whose step answers a next state. -/
theorem witness_EveryStepKeepsTheInvariant :
    State.Inv (fed 0x2F true [.exhausted] [.ok]) ∧ (viewAfter (fed 0x2F true [.exhausted] [.ok])).isSome = true := by
  refine ⟨⟨by decide, ?_, ?_⟩, by decide⟩ <;> exact fun h => absurd h (by decide)
theorem witness_ResetHasTheInvariant : Memory.wf (edge 0xFF).rom = true := by decide
theorem witness_TwoInsReadSuccessiveValues :
    let s := fed 0x2F false [.value 15, .value 0] []
    s.status = .running ∧ s.inputAttached = true ∧ s.traceAttached = false ∧ s.inAnswerAt 0 = .value 15 ∧
      s.inAnswerAt 1 = .value 0 := by decide
/-- A text that assembles; its first and last instructions, and the last address as padding. -/
theorem witness_AssembledRomDecodesToItsLines :
    assemble "mov b,5\njmp 15\n".toList = .assembled { State.reset with rom := [(0, 0x55), (1, 0xFF)] } ∧
    (emittedBy (sourceLines "mov b,5\njmp 15\n".toList))[0]? = some (.movBImm 5) ∧
    (emittedBy (sourceLines "mov b,5\njmp 15\n".toList))[1]? = some (.jmp 15) ∧
    (emittedBy (sourceLines "mov b,5\njmp 15\n".toList)).length ≤ 15 := by decide
theorem witness_EveryShortProgramAssembles :
    ((List.replicate 16 (Instr.outImm 15)).all Instr.assemblable = true ∧
      (List.replicate 16 (Instr.outImm 15)).length ≤ 16) ∧
    ((List.replicate 17 (Instr.outB 0)).all Instr.assemblable = true ∧
      16 < (List.replicate 17 (Instr.outB 0)).length) := by decide
/-- Each kind of gap, and the largest admitted number. -/
theorem witness_NumbersAreMaskedToFourBits :
    (isBlank [' ', '\t'] = true ∧ isBlank [] = true) ∧
    (IsFieldGap [' '] ∧ IsFieldGap [','] ∧ IsFieldGap [' ', ',', ' ']) ∧
    "32767".toList ≠ [] ∧ "32767".toList.all Char.isDigit = true ∧
    "32767".toList.foldl (fun acc c => 10 * acc + (c.toNat - 48)) 0 = 32767 ∧ 32767 ≤ 32767 :=
  ⟨by decide, ⟨.inl (by decide), .inr ⟨[], [], by decide⟩, .inr ⟨[' '], [' '], by decide⟩⟩, by decide⟩
/-- Lines of exactly 254 characters: 250 digits after `jmp `, and 248 after `add a,`. -/
theorem witness_NumbersAreMaskedToFourBits_longest :
    let d250 := List.replicate 250 '0'
    let d248 := List.replicate 248 '0'
    (("jmp", Instr.jmp) ∈ [("out", Instr.outImm), ("jc", .jc), ("jmp", .jmp)] ∧
      ([] ++ "jmp".toList ++ [' '] ++ d250 ++ []).length ≤ 254) ∧
    (("add", "a", Instr.addA) ∈
        [("add", "a", Instr.addA), ("add", "b", .addB), ("mov", "a", .movAImm), ("mov", "b", .movBImm)] ∧
      ([] ++ "add".toList ++ [' '] ++ "a".toList ++ [','] ++ d248 ++ []).length ≤ 254) ∧
    d248.all Char.isDigit = true := by
  refine ⟨⟨by simp, ?_⟩, ⟨by simp, ?_⟩, ?_⟩
  · simp only [List.length_append, List.length_replicate]
    decide
  · simp only [List.length_append, List.length_replicate]
    decide
  · rw [List.all_eq_true]
    exact fun c hc => by rw [List.eq_of_mem_replicate hc]; decide
theorem witness_CommentLinesTakeNoSlot :
    '#' ∈ [';', '#'] ∧ (List.replicate 253 'x').length ≤ 253 ∧ '\n' ∉ List.replicate 253 'x' := by
  refine ⟨by decide, by rw [List.length_replicate], fun h => ?_⟩
  exact absurd (List.eq_of_mem_replicate h) (by decide)
theorem witness_DumpLoadsBackTheSameRom : Memory.wf [(0, 0x05), (15, 0xFF)] = true := by decide
theorem witness_LoadedImageFillsTheRomInOrder :
    (List.replicate 16 (0xFF : Byte)).length ≤ 16 ∧ 16 < (List.replicate 17 (0xFF : Byte)).length := by decide
/-- A text of the spec with an error, which is admitted. -/
theorem witness_AdmittedTextAssemblesAlikeForEveryTool :
    ∀ n p, assemble "mov a, 1\nbogus\nout b".toList ≠ .notAdmitted n p := by
  intro n p h
  rw [test_asm_error_line] at h
  cases h
theorem witness_ImagesLoadAlikeInEveryLoader :
    (List.replicate 16 (0xA5 : Byte)).length ≤ 16 ∧ '\t' ∈ [',', ' ', '\n', '\t'] ∧
    loadHexText "0xA5,0xa5".toList = .loaded [(0, 0xA5), (1, 0xA5)] := by decide
theorem witness_StartedRunBeginsAtZero : (List.replicate 16 (0xFF : Byte)).length ≤ 16 := by decide

end Sys2Proof.Tests
end

section
/-! SUPPORT. Reading back a hex image text whose tokens are each ended by one separator (spec
70_reset_and_hazards.md R253). -/

namespace Sys2Proof.Machine

/-! ### Tokens of a separated text -/

/-- Pieces that are each ended by a separator are cut out as they were written. -/
theorem piecesOf_flatMap_sep {α : Type} {sep : Char → Bool} {c : Char} (hc : sep c = true)
    {spell : α → List Char} (h0 : ∀ x, spell x ≠ []) (hw : ∀ x, ∀ d ∈ spell x, sep d = false)
    (xs : List α) : piecesOf sep (xs.flatMap fun x => spell x ++ [c]) = xs.map spell := by
  induction xs with
  | nil => rfl
  | cons x xs ih =>
    rw [List.flatMap_cons, List.append_assoc, List.singleton_append,
      piecesOf_append_sep hc (h0 x) (hw x), ih, List.map_cons]

theorem hexTokens_map {spell : Byte → List Char} (h : ∀ b, hexToken (spell b) = some b)
    (image : List Byte) : hexTokens (image.map spell) = some image := by
  induction image with
  | nil => rfl
  | cons b bs ih => simp only [List.map_cons, hexTokens, h b, ih]

/-! ### Hex digits -/

theorem isHexSeparator_of_hexDigit {c : Char} {d : Nat} (h : hexDigitValue c = some d) :
    isHexSeparator c = false := by
  by_contra hs
  simp only [isHexSeparator, Bool.not_eq_false, Bool.or_eq_true, beq_iff_eq, Char.isWhitespace,
    decide_eq_true_eq] at hs
  rcases hs with rfl | ((rfl | rfl) | rfl) | rfl <;> cases h

theorem hexFrom_cons_eq_some {n m : Nat} {c : Char} {cs : List Char} :
    hexFrom n (c :: cs) = some m ↔ ∃ d, hexDigitValue c = some d ∧ hexFrom (16 * n + d) cs = some m := by
  rw [hexFrom]
  cases hexDigitValue c <;> simp

/-- A text that reads as a number holds no separator. -/
theorem isHexSeparator_of_hexFrom {n m : Nat} {w : List Char} (h : hexFrom n w = some m) :
    ∀ c ∈ w, isHexSeparator c = false := by
  induction w generalizing n with
  | nil => exact fun c hc => absurd hc List.not_mem_nil
  | cons c cs ih =>
    obtain ⟨d, hd, hcs⟩ := hexFrom_cons_eq_some.mp h
    exact List.forall_mem_cons.mpr ⟨isHexSeparator_of_hexDigit hd, ih hcs⟩

/-- A last digit is added to what stands before it. -/
theorem hexFrom_append_digit {n m d : Nat} {w : List Char} {c : Char} (hw : hexFrom n w = some m)
    (hc : hexDigitValue c = some d) : hexFrom n (w ++ [c]) = some (16 * m + d) := by
  induction w generalizing n with
  | nil =>
    cases hw
    exact hexFrom_cons_eq_some.mpr ⟨d, hc, rfl⟩
  | cons x xs ih =>
    obtain ⟨e, he, hxs⟩ := hexFrom_cons_eq_some.mp hw
    exact hexFrom_cons_eq_some.mpr ⟨e, he, ih hxs⟩

/-! ### One token -/

theorem hexToken_of_hexFrom {w : List Char} {n : Nat} (h0 : w ≠ []) (h : hexFrom 0 w = some n)
    (hn : n < 256) : hexToken ('0' :: 'x' :: w) = some (BitVec.ofNat 8 n) := by
  cases w with
  | nil => exact absurd rfl h0
  | cons d ds => simp only [hexToken, h, if_pos hn]

/-- A well-formed token is `0x` and a text that reads as a number. -/
theorem hexToken_eq_some {w : List Char} {b : Byte} (h : hexToken w = some b) :
    ∃ ds n, w = '0' :: 'x' :: ds ∧ hexFrom 0 ds = some n := by
  unfold hexToken at h
  split at h
  case h_1 d ds =>
    cases hn : hexFrom 0 (d :: ds) with
    | some n => exact ⟨d :: ds, n, rfl, hn⟩
    | none => simp [hn] at h
  case h_2 => cases h

theorem hexToken_ne_nil {w : List Char} {b : Byte} (h : hexToken w = some b) : w ≠ [] := by
  obtain ⟨ds, n, rfl, -⟩ := hexToken_eq_some h
  exact List.cons_ne_nil _ _

theorem isHexSeparator_of_hexToken {w : List Char} {b : Byte} (h : hexToken w = some b) :
    ∀ c ∈ w, isHexSeparator c = false := by
  obtain ⟨ds, n, rfl, hds⟩ := hexToken_eq_some h
  exact List.forall_mem_cons.mpr ⟨by decide,
    List.forall_mem_cons.mpr ⟨by decide, isHexSeparator_of_hexFrom hds⟩⟩

/-! ### The image -/

/-- Any spelling of bytes as tokens is read back, whatever separator ends each token. -/
theorem admittedHexImage_of_spelling {spell : Byte → List Char} (h : ∀ b, hexToken (spell b) = some b)
    {sep : Char} (hsep : isHexSeparator sep = true) {image : List Byte} (hlen : image.length ≤ 16) :
    admittedHexImage (image.flatMap fun b => spell b ++ [sep]) = some (romFrom 0 image) := by
  have htexts : hexTokenTexts (image.flatMap fun b => spell b ++ [sep]) = image.map spell :=
    piecesOf_flatMap_sep hsep (fun b => hexToken_ne_nil (h b))
      (fun b => isHexSeparator_of_hexToken (h b)) image
  simp only [admittedHexImage, htexts, hexTokens_map h, loadImage, imageWellFormed, hlen, decide_true,
    if_true]

theorem loadHexTextWith_of_admitted {text : List Char} {m : Memory} (h : admittedHexImage text = some m)
    (mode : HexLoaderMode) : loadHexTextWith mode text = .loaded m := by
  simp only [loadHexTextWith, h]

/-- A loader of which nothing is said loads the admitted images only. -/
theorem admittedHexImage_of_loadHexText {text : List Char} {m : Memory} (h : loadHexText text = .loaded m) :
    admittedHexImage text = some m := by
  rcases loadHexTextWith_cases .admittedOnly text with
    ⟨m', ha, hl⟩ | ⟨-, ⟨es, hm, -⟩ | ⟨hm, -⟩ | ⟨-, hl⟩⟩
  · cases hl.symm.trans h
    exact ha
  · cases hm
  · cases hm
  · cases hl.symm.trans h

/-! ### Digits in either case -/

/-- Hex digits as they stand (lower case), or in capitals. -/
def hexCase (capitals : Bool) : Char → Char := if capitals then Char.toUpper else id

/-- The token of a byte, with digits in either case. -/
def byteToken (capitals : Bool) (b : Byte) : List Char :=
  "0x".toList ++ (Nat.toDigits 16 b.toNat).map (hexCase capitals)

theorem hexDigitValue_hexCase_digitChar :
    ∀ (capitals : Bool) (d : Nat), d < 16 → hexDigitValue (hexCase capitals d.digitChar) = some d := by
  decide

/-- Base-16 digits in either case read back as their number. -/
theorem hexFrom_toDigits (capitals : Bool) (n : Nat) :
    hexFrom 0 ((Nat.toDigits 16 n).map (hexCase capitals)) = some n := by
  induction n using Nat.strongRecOn with
  | ind n ih =>
    by_cases hn : n < 16
    · have hd := hexDigitValue_hexCase_digitChar capitals n hn
      rw [Nat.toDigits_of_lt_base hn]
      exact hexFrom_cons_eq_some.mpr ⟨n, hd, by simp [hexFrom]⟩
    · have hd := hexDigitValue_hexCase_digitChar capitals (n % 16) (by omega)
      rw [Nat.toDigits_of_base_le (by omega) (by omega), List.map_append, List.map_singleton,
        hexFrom_append_digit (ih (n / 16) (by omega)) hd, Nat.div_add_mod]

theorem hexToken_byteToken (capitals : Bool) (b : Byte) : hexToken (byteToken capitals b) = some b := by
  have hread := hexToken_of_hexFrom (w := (Nat.toDigits 16 b.toNat).map (hexCase capitals))
    (by simp [Nat.toDigits_ne_nil]) (hexFrom_toDigits capitals b.toNat) b.isLt
  simpa [byteToken] using hread

end Sys2Proof.Machine
end

section
/-! SUPPORT. Each function of the assembler gives the same for every tool, unless it ends outside the
admitted forms where nothing is said of the tool (spec 00_scope.md R8, 30_encoding.md R74, R84). -/

namespace Sys2Proof.Machine

theorem withNumber_admitted_or (tool : AsmTool) (w : List Char) (make : Nibble → Instr) :
    withNumber tool w make = withNumber .admittedOnly w make ∨
      withNumber .admittedOnly w make = .notAdmitted .asmNumericSyntax := by
  cases h : decimalValue w with
  | some n => exact .inl (by rw [withNumber_of_decimal h, withNumber_of_decimal h])
  | none => exact .inr (by simp only [withNumber, h, AsmTool.admittedOnly])

/-- The operands of a mnemonic depend on the tool by at most one numeric operand. -/
theorem asmOperands_form (k : Mnemonic) (operands : List (List Char)) :
    (∃ r, ∀ tool, asmOperands tool k operands = r) ∨
      ∃ w make, ∀ tool, asmOperands tool k operands = withNumber tool w make := by
  fun_cases asmOperands .admittedOnly k operands
  -- the seven branches that read a number (30_encoding.md R76, R77, R79 to R81)
  case case1 | case2 | case5 | case7 | case14 | case15 | case16 =>
    exact .inr ⟨_, _, fun tool => by simp only [asmOperands, *]; rfl⟩
  all_goals exact .inl ⟨_, fun tool => by simp only [asmOperands, *]; rfl⟩

theorem asmOperands_admitted_or (tool : AsmTool) (k : Mnemonic) (operands : List (List Char)) :
    asmOperands tool k operands = asmOperands .admittedOnly k operands ∨
      asmOperands .admittedOnly k operands = .notAdmitted .asmNumericSyntax := by
  rcases asmOperands_form k operands with ⟨r, h⟩ | ⟨w, make, h⟩
  · exact .inl ((h tool).trans (h _).symm)
  · rw [h, h]
    exact withNumber_admitted_or tool w make

theorem asmFields_admitted_or (tool : AsmTool) (raw : List Char) (fields : List (List Char)) :
    asmFields tool raw fields = asmFields .admittedOnly raw fields ∨
      asmFields .admittedOnly raw fields = .notAdmitted .asmNumericSyntax := by
  unfold asmFields
  split
  case h_1 => exact .inl rfl
  case h_2 => exact .inl rfl
  case h_3 m operands _ =>
    cases mnemonicOf m with
    | some k => exact asmOperands_admitted_or tool k operands
    | none => exact .inl rfl

/-- A line is read alike by every tool, or it is outside the admitted forms. -/
theorem asmLineWith_admitted_or (tool : AsmTool) (line : List Char) :
    asmLineWith tool line = asmLine line ∨ ∃ p, asmLine line = .notAdmitted p := by
  unfold asmLine
  by_cases hlen : 254 < line.length
  · exact .inl (by simp only [asmLineWith, if_pos hlen])
  cases hf : fieldsOf (cutComment line) with
  | none => exact .inl (by simp only [asmLineWith, hf])
  | some fields =>
    cases hc : hasCapitals fields with
    | false =>
      rw [asmLineWith_of_fields (Nat.not_lt.mp hlen) hf hc, asmLineWith_of_fields (Nat.not_lt.mp hlen) hf hc]
      exact (asmFields_admitted_or tool line fields).imp_right fun h => ⟨_, h⟩
    | true =>
      refine .inr ⟨.asmCaseMode, ?_⟩
      simp only [asmLineWith, if_neg hlen, hf, caseFolded_admittedOnly, hc, if_true]

/-- The lines of a text assemble alike by every tool, or one of them is outside the admitted forms. -/
theorem asmFromWith_admitted_or (tool : AsmTool) (n : Nat) (bytes : List Byte) (lines : List (List Char)) :
    asmFromWith tool n bytes lines = asmFrom n bytes lines ∨
      ∃ m p, asmFrom n bytes lines = .notAdmitted m p := by
  unfold asmFrom
  induction lines generalizing n bytes with
  | nil => exact .inl rfl
  | cons line rest ih =>
    rcases asmLineWith_admitted_or tool line with heq | ⟨p, hp⟩
    · cases hl : asmLine line with
      | skip =>
        rw [asmFromWith_of_skip (heq.trans hl), asmFromWith_of_skip hl]
        exact ih _ _
      | error k => exact .inl (by rw [asmFromWith_of_error (heq.trans hl), asmFromWith_of_error hl])
      | notAdmitted p => exact .inr ⟨n, p, asmFromWith_of_notAdmitted hl⟩
      | emit i =>
        rcases Nat.lt_or_ge bytes.length 16 with hb | hb
        · rw [asmFromWith_of_emit (heq.trans hl) hb, asmFromWith_of_emit hl hb]
          exact ih _ _
        · exact .inl (by rw [asmFromWith_of_emit_full (heq.trans hl) hb, asmFromWith_of_emit_full hl hb])
    · exact .inr ⟨n, p, asmFromWith_of_notAdmitted hp⟩

end Sys2Proof.Machine
end

section
/-! The statements on what the open parameters of the spec decide (00_scope.md R8). -/

open Sys2Proof Sys2Proof.Machine

/-- Settles O50: line by line, a tool's parameters are consulted only where a tool of which nothing is
said ends at a line outside the admitted forms. -/
theorem admittedTextAssemblesAlikeForEveryTool : Obligations.AdmittedTextAssemblesAlikeForEveryTool := by
  intro tool text hadm
  exact (asmFromWith_admitted_or tool 1 [] (sourceLines text)).resolve_right
    fun ⟨n, p, h⟩ => hadm n p h

/-- Settles O51: every such text is an admitted image, and an admitted image is loaded whatever the mode. -/
theorem imagesLoadAlikeInEveryLoader : Obligations.ImagesLoadAlikeInEveryLoader := by
  refine ⟨fun mode image capitals sep hlen hsep => ?_, fun mode text m h => ?_⟩
  · have hsep' : isHexSeparator sep = true := by
      simp only [List.mem_cons, List.not_mem_nil, or_false] at hsep
      rcases hsep with rfl | rfl | rfl | rfl <;> rfl
    exact loadHexTextWith_of_admitted
      (admittedHexImage_of_spelling (hexToken_byteToken capitals) hsep' hlen) mode
  · exact loadHexTextWith_of_admitted (admittedHexImage_of_loadHexText h) mode

end

section
/-! SUPPORT. The registers by name, and which of them each instruction reads and writes: one table for each,
tied to `exec` by a frame theorem (`exec_reg_of_not_written`) and a noninterference theorem (`exec_agree`)
(spec 10_state.md R22 to R28; 40_execution_cycle.md R103, R104). -/

namespace Sys2Proof.Machine

/-! ### Registers by name -/

/-- The registers, latches and flag that an instruction can read or write in phases 2 and 3. -/
inductive Reg where
  | a | b | inLatch | out | carry

/-- The values of a register: the carry flag is a truth value, every other register a nibble. -/
abbrev Reg.Val : Reg → Type
  | .carry => Bool
  | .a | .b | .inLatch | .out => Nibble

def State.reg (s : State) : (q : Reg) → q.Val
  | .a => s.a
  | .b => s.b
  | .inLatch => s.inLatch
  | .out => s.out
  | .carry => s.carry

def State.setReg (s : State) : (q : Reg) → q.Val → State
  | .a, v => s.setA v
  | .b, v => s.setB v
  | .inLatch, v => s.setInLatch v
  | .out, v => s.setOut v
  | .carry, v => s.setCarry v

theorem State.reg_setReg_of_ne {q r : Reg} (h : q ≠ r) (s : State) (v : r.Val) :
    (s.setReg r v).reg q = s.reg q := by
  cases r <;> cases q <;> simp [State.reg, State.setReg] at h ⊢

@[simp] theorem State.reg_setPc (v : Nibble) (s : State) (q : Reg) : (s.setPc v).reg q = s.reg q := by
  cases q <;> rfl
@[simp] theorem State.reg_abort (r : AbortReason) (s : State) (q : Reg) : (s.abort r).reg q = s.reg q := by
  cases q <;> rfl
@[simp] theorem State.reg_recordTrace (t : TraceText) (s : State) (q : Reg) :
    (s.recordTrace t).reg q = s.reg q := by
  cases q <;> rfl
@[simp] theorem State.reg_useInAnswer (s : State) (q : Reg) : s.useInAnswer.reg q = s.reg q := by
  cases q <;> rfl

theorem State.reg_setInLatch_of_ne {q : Reg} (h : q ≠ .inLatch) (v : Nibble) (s : State) :
    (s.setInLatch v).reg q = s.reg q :=
  State.reg_setReg_of_ne (r := .inLatch) h s v

/-! ### What an instruction reads and writes -/

/-- The registers that the execute phase of an instruction reads, the next pc included (R104, R112). -/
def readsOf : Instr → List Reg
  | .addA _ | .movBA _ => [.a]
  | .movAB _ | .addB _ | .outB _ => [.b]
  | .inA _ | .inB _ => [.inLatch]
  | .jc _ => [.carry]
  | .movAImm _ | .movBImm _ | .outImm _ | .jmp _ | .nop8 _ | .nopB _ | .nopC _ | .nopD _ => []

/-- The registers an instruction writes in phases 2 and 3. -/
def writesOf : Instr → List Reg
  | .addA _ => [.a, .carry]
  | .addB _ => [.b, .carry]
  | .inA _ => [.inLatch, .a]
  | .inB _ => [.inLatch, .b]
  | .movAB _ | .movAImm _ => [.a]
  | .movBA _ | .movBImm _ => [.b]
  | .outB _ | .outImm _ => [.out]
  | .jc _ | .jmp _ | .nop8 _ | .nopB _ | .nopC _ | .nopD _ => []

theorem a_mem_readsOf (i : Instr) : Reg.a ∈ readsOf i ↔ i.opcode ∈ [0x0#4, 0x4#4] := by
  cases i <;> simp [readsOf, Instr.opcode]

theorem b_mem_readsOf (i : Instr) : Reg.b ∈ readsOf i ↔ i.opcode ∈ [0x1#4, 0x6#4, 0x9#4] := by
  cases i <;> simp [readsOf, Instr.opcode]

theorem carry_mem_readsOf (i : Instr) : Reg.carry ∈ readsOf i ↔ i.opcode ∈ [0xE#4] := by
  cases i <;> simp [readsOf, Instr.opcode]

theorem out_not_mem_readsOf (i : Instr) : Reg.out ∉ readsOf i := by
  cases i <;> simp [readsOf]

theorem a_mem_writesOf (i : Instr) :
    Reg.a ∈ writesOf i ↔ i.opcode ∈ [0x0#4, 0x1#4, 0x2#4, 0x3#4] := by
  cases i <;> simp [writesOf, Instr.opcode]

theorem b_mem_writesOf (i : Instr) :
    Reg.b ∈ writesOf i ↔ i.opcode ∈ [0x4#4, 0x5#4, 0x6#4, 0x7#4] := by
  cases i <;> simp [writesOf, Instr.opcode]

theorem carry_mem_writesOf (i : Instr) : Reg.carry ∈ writesOf i ↔ i.opcode ∈ [0x0#4, 0x6#4] := by
  cases i <;> simp [writesOf, Instr.opcode]

theorem inLatch_mem_writesOf (i : Instr) : Reg.inLatch ∈ writesOf i ↔ i.opcode ∈ [0x2#4, 0x7#4] := by
  cases i <;> simp [writesOf, Instr.opcode]

theorem out_mem_writesOf (i : Instr) : Reg.out ∈ writesOf i ↔ i.opcode ∈ [0x9#4, 0xA#4] := by
  cases i <;> simp [writesOf, Instr.opcode]

theorem isIn_eq_true_iff (i : Instr) : i.isIn = true ↔ i.opcode ∈ [0x2#4, 0x7#4] := by
  cases i <;> simp [Instr.isIn, Instr.opcode]

/-- Phase 3 leaves every register that the instruction does not write. -/
theorem effectOf_reg_of_not_written (i : Instr) {q : Reg} (hq : q ∉ writesOf i) (s : State) :
    (effectOf i s).reg q = s.reg q := by
  cases i <;> cases q <;>
    simp [writesOf, effectOf, move, addTo, nothing, Dest.load, State.reg] at hq ⊢

/-- What phase 3 leaves in a register that the instruction writes depends on the registers it reads alone. -/
theorem effectOf_reg_congr {i : Instr} {s u : State} (h : ∀ q ∈ readsOf i, s.reg q = u.reg q)
    {q : Reg} (hq : q ∈ writesOf i) : (effectOf i s).reg q = (effectOf i u).reg q := by
  cases i <;> cases q <;>
    simp_all [readsOf, writesOf, effectOf, move, addTo, Dest.load, Source.value, State.reg]

/-! ### The frame of `exec` -/

/-- A step that ends in phase 2 has aborted, with every register and `pc` kept (R109). -/
theorem inputOf_stop_keeps {i : Instr} {s t : State} (h : inputOf i s = .stop t) :
    t.status ≠ .running ∧ t.pc = s.pc ∧ ∀ q, t.reg q = s.reg q := by
  rcases inputOf_cases i s with
    ⟨-, e⟩ | ⟨-, -, v, -, ⟨-, e⟩ | ⟨-, -, e⟩⟩ | ⟨-, -, -, ⟨-, e⟩ | ⟨-, -, e⟩⟩ | ⟨-, -, -, -, e⟩ <;>
    rw [e] at h <;> cases h
  all_goals exact ⟨by simp, by simp, by simp⟩

/-- A phase 2 that goes on has written the latch at most. -/
theorem inputOf_goOn_keeps {i : Instr} {s s2 : State} (h : inputOf i s = .goOn s2) :
    s2.status = s.status ∧ s2.pc = s.pc ∧ ∀ q, q ≠ .inLatch → s2.reg q = s.reg q := by
  rcases inputOf_cases i s with
    ⟨-, e⟩ | ⟨-, -, v, -, ⟨-, e⟩ | ⟨-, -, e⟩⟩ | ⟨-, -, -, ⟨-, e⟩ | ⟨-, -, e⟩⟩ | ⟨-, -, -, -, e⟩ <;>
    rw [e] at h <;> cases h
  all_goals exact ⟨by simp, by simp, fun q hq => by simp [State.reg_setInLatch_of_ne hq]⟩

theorem inputOf_goOn_reg_of_not_written {i : Instr} {s s2 : State} (h : inputOf i s = .goOn s2) {q : Reg}
    (hq : q ∉ writesOf i) : s2.reg q = s.reg q := by
  cases hi : i.isIn with
  | true =>
    obtain ⟨-, -, hreg⟩ := inputOf_goOn_keeps h
    have hl : Reg.inLatch ∈ writesOf i := (inLatch_mem_writesOf i).mpr ((isIn_eq_true_iff i).mp hi)
    exact hreg q (ne_of_mem_of_not_mem hl hq).symm
  | false =>
    rw [inputOf_of_noRead (.inl hi)] at h
    cases h
    rfl

/-- The registers after a step: those phase 2 left where it aborted, and else those of phase 3, whatever
becomes of the trace line. -/
theorem exec_reg_cases {i : Instr} {s t : State} (h : exec i s = .next t) :
    inputOf i s = .stop t ∨
    ∃ s2, inputOf i s = .goOn s2 ∧ ∀ q, t.reg q = (effectOf i s2).reg q := by
  have hr : s.status = .running := (runStep_next_iff.mp (exec_eq_runStep i s ▸ h)).1
  rcases exec_cases i hr with
    ⟨s2, hin, e⟩ | ⟨s2, hin, -, e⟩ | ⟨s2, hin, -, -, e⟩ | ⟨s2, hin, -, -, e⟩ <;>
    rw [e] at h <;> cases h
  · exact .inl hin
  all_goals exact .inr ⟨s2, hin, by simp⟩

/-- THE FRAME: a step, however it ends, leaves every register that its instruction does not write. -/
theorem exec_reg_of_not_written {i : Instr} {s t : State} (h : exec i s = .next t) {q : Reg}
    (hq : q ∉ writesOf i) : t.reg q = s.reg q := by
  rcases exec_reg_cases h with hin | ⟨s2, hin, ht⟩
  · obtain ⟨-, -, hreg⟩ := inputOf_stop_keeps hin
    exact hreg q
  · calc t.reg q = (effectOf i s2).reg q := ht q
      _ = s2.reg q := effectOf_reg_of_not_written i hq s2
      _ = s.reg q := inputOf_goOn_reg_of_not_written hin hq

/-! ### Two states that agree on some registers -/

/-- Two states that agree on the registers of `P` and on everything else a step works on, but for the
texts of the trace writes made so far. -/
structure Agree (P : Reg → Prop) (s u : State) : Prop where
  reg : ∀ q, P q → s.reg q = u.reg q
  pc : s.pc = u.pc
  rom : s.rom = u.rom
  status : s.status = u.status
  inputAttached : s.inputAttached = u.inputAttached
  traceAttached : s.traceAttached = u.traceAttached
  inAnswers : s.inAnswers = u.inAnswers
  inReads : s.inReads = u.inReads
  traceAnswers : s.traceAnswers = u.traceAnswers
  logLength : s.traceLog.length = u.traceLog.length

namespace Agree

variable {P Q : Reg → Prop} {s u : State}

theorem mono (h : Agree P s u) (hQ : ∀ q, Q q → P q) : Agree Q s u :=
  { h with reg := fun q hq => h.reg q (hQ q hq) }

theorem inAnswerAt (h : Agree P s u) (k : Nat) : s.inAnswerAt k = u.inAnswerAt k := by
  simp only [State.inAnswerAt, h.inAnswers, h.inReads]

theorem traceAnswerAt (h : Agree P s u) (k : Nat) : s.traceAnswerAt k = u.traceAnswerAt k := by
  simp only [State.traceAnswerAt, h.traceAnswers, h.logLength]

theorem setReg (s : State) (r : Reg) (v : r.Val) : Agree (· ≠ r) s (s.setReg r v) where
  reg q hq := (State.reg_setReg_of_ne hq s v).symm
  pc := by cases r <;> rfl
  rom := by cases r <;> rfl
  status := by cases r <;> rfl
  inputAttached := by cases r <;> rfl
  traceAttached := by cases r <;> rfl
  inAnswers := by cases r <;> rfl
  inReads := by cases r <;> rfl
  traceAnswers := by cases r <;> rfl
  logLength := by cases r <;> rfl

theorem setPc (h : Agree P s u) {v w : Nibble} (hv : v = w) : Agree P (s.setPc v) (u.setPc w) :=
  { h with reg := by simpa using h.reg, pc := hv }

theorem abort (h : Agree P s u) (r : AbortReason) : Agree P (s.abort r) (u.abort r) :=
  { h with reg := by simpa using h.reg, status := rfl }

theorem recordTrace (h : Agree P s u) (t t' : TraceText) :
    Agree P (s.recordTrace t) (u.recordTrace t') :=
  { h with
    reg := by simpa using h.reg
    traceAnswers := by simp [h.traceAnswers]
    logLength := by simp [h.logLength] }

theorem useInAnswer (h : Agree P s u) : Agree P s.useInAnswer u.useInAnswer :=
  { h with
    reg := by simpa using h.reg
    inAnswers := by simp [h.inAnswers]
    inReads := by simp [h.inReads] }

theorem setInLatch (h : Agree P s u) (v : Nibble) : Agree P (s.setInLatch v) (u.setInLatch v) :=
  { h with
    reg := fun q hq => by
      cases q with
      | inLatch => rfl
      | a | b | out | carry => exact h.reg _ hq }

/-- States that agree on all registers but one are equal once that register and the trace log are cleared. -/
theorem cleared_eq {r : Reg} (h : Agree (· ≠ r) s u) (v : r.Val) :
    ({ s.setReg r v with traceLog := [] } : State) = { u.setReg r v with traceLog := [] } := by
  have ha : Reg.a ≠ r → s.a = u.a := h.reg .a
  have hb : Reg.b ≠ r → s.b = u.b := h.reg .b
  have hl : Reg.inLatch ≠ r → s.inLatch = u.inLatch := h.reg .inLatch
  have ho : Reg.out ≠ r → s.out = u.out := h.reg .out
  have hc : Reg.carry ≠ r → s.carry = u.carry := h.reg .carry
  cases r <;>
    simp_all [State.setReg, State.setA, State.setB, State.setInLatch, State.setOut, State.setCarry, h.pc,
      h.rom, h.status, h.inputAttached, h.traceAttached, h.inAnswers, h.inReads, h.traceAnswers]

end Agree

/-! ### The phases of a step from two agreeing states -/

/-- Two ends of a phase alike: both go on or both stop, in agreeing states. -/
inductive PhaseEnd.Agree (P : Reg → Prop) : PhaseEnd → PhaseEnd → Prop where
  | goOn {s u : State} : Machine.Agree P s u → PhaseEnd.Agree P (.goOn s) (.goOn u)
  | stop {s u : State} : Machine.Agree P s u → PhaseEnd.Agree P (.stop s) (.stop u)

namespace PhaseEnd.Agree

variable {P : Reg → Prop} {p p' : PhaseEnd} {f g : State → PhaseEnd}

theorem andThen (h : PhaseEnd.Agree P p p')
    (hf : ∀ {s u}, Machine.Agree P s u → PhaseEnd.Agree P (f s) (g u)) :
    PhaseEnd.Agree P (p.andThen f) (p'.andThen g) := by
  cases h with
  | goOn h => exact hf h
  | stop h => exact .stop h

theorem state (h : PhaseEnd.Agree P p p') : Machine.Agree P p.state p'.state := by
  cases h with
  | goOn h => exact h
  | stop h => exact h

end PhaseEnd.Agree

section Phases

variable {P : Reg → Prop} {s u s2 u2 : State}

/-- Whether a trace write is accepted does not depend on its text. -/
theorem agree_traceWrite (h : Agree P s u) (t t' : TraceText) :
    PhaseEnd.Agree P (traceWrite t s) (traceWrite t' u) := by
  rcases traceWrite_cases t s with ⟨h0, e⟩ | ⟨h0, e⟩
  · rw [e, traceWrite_of_ok ((h.traceAnswerAt 0).symm.trans h0)]
    exact .goOn (h.recordTrace t t')
  · rw [e, traceWrite_of_fail ((h.traceAnswerAt 0).symm.trans h0)]
    exact .stop ((h.recordTrace t t').abort _)

theorem agree_inputRead (h : Agree P s u) : PhaseEnd.Agree P (inputRead s) (inputRead u) := by
  rcases inputRead_cases s with ⟨v, h0, e⟩ | ⟨h0, e⟩
  · rw [e, inputRead_of_value ((h.inAnswerAt 0).symm.trans h0)]
    exact .goOn (h.useInAnswer.setInLatch v)
  · rw [e, inputRead_of_exhausted ((h.inAnswerAt 0).symm.trans h0)]
    exact .stop (h.useInAnswer.abort _)

theorem agree_inputPhase (h : Agree P s u) : PhaseEnd.Agree P (inputPhase s) (inputPhase u) := by
  unfold inputPhase
  rw [← h.inputAttached, ← h.traceAttached]
  split_ifs
  · exact (agree_traceWrite h _ _).andThen agree_inputRead
  · exact agree_inputRead h
  · exact .goOn h

theorem agree_inputOf (h : Agree P s u) (i : Instr) : PhaseEnd.Agree P (inputOf i s) (inputOf i u) := by
  unfold inputOf
  split_ifs
  · exact agree_inputPhase h
  · exact .goOn h

theorem agree_tracePhase (h : Agree P s u) (i : Instr) :
    PhaseEnd.Agree P (tracePhase i s) (tracePhase i u) := by
  unfold tracePhase
  rw [← h.traceAttached]
  split_ifs
  · exact agree_traceWrite h _ _
  · exact .goOn h

/-- Phase 3 carries agreement on what it reads over to what it writes. -/
theorem agree_effectOf {i : Instr} (h : Agree P s u) (hreads : ∀ q ∈ readsOf i, P q) :
    Agree (fun q => P q ∨ q ∈ writesOf i) (effectOf i s) (effectOf i u) := by
  have hreg : ∀ q, P q ∨ q ∈ writesOf i → (effectOf i s).reg q = (effectOf i u).reg q := by
    intro q hq
    by_cases hw : q ∈ writesOf i
    · exact effectOf_reg_congr (fun r hr => h.reg r (hreads r hr)) hw
    · rw [effectOf_reg_of_not_written i hw, effectOf_reg_of_not_written i hw]
      exact h.reg q (hq.resolve_right hw)
  cases i <;> exact { h with reg := hreg }

theorem nextOf_congr {i : Instr} (h : Agree P s u) (hreads : ∀ q ∈ readsOf i, P q) :
    nextOf i s = nextOf i u := by
  cases i with
  | jc n =>
    have hc : s.carry = u.carry := h.reg .carry (hreads .carry (by simp [readsOf]))
    simp [nextOf, sequential, hc, h.pc]
  | jmp n => rfl
  | _ => exact congrArg pcIncrement h.pc

/-- From agreeing states in which phase 2 goes on, the whole steps agree, also on what they write. -/
theorem agree_phases_of_goOn {i : Instr} (h : Agree P s2 u2) (hreads : ∀ q ∈ readsOf i, P q)
    (hs : inputOf i s = .goOn s2) (hu : inputOf i u = .goOn u2) :
    Agree (fun q => P q ∨ q ∈ writesOf i) (phases i (inputOf i) (effectOf i) (nextOf i) s)
      (phases i (inputOf i) (effectOf i) (nextOf i) u) := by
  simp only [phases, hs, hu, PhaseEnd.goOn_andThen, normalize_eq]
  exact ((agree_tracePhase (agree_effectOf h hreads) i).andThen
    fun h5 => .goOn (h5.setPc (nextOf_congr h hreads))).state

theorem inputPhaseGoesOn_of_opcode {i : Instr} {ops : List Nibble} (hop : i.opcode ∈ ops)
    (hno : ∀ op ∈ ops, op ∉ [0x2#4, 0x7#4]) : i.isIn = true → InputPhaseGoesOn s :=
  fun hin => absurd ((isIn_eq_true_iff i).mp hin) (hno _ hop)

/-- Where the input phase may go on, phase 2 does. -/
theorem exists_inputOf_goOn {i : Instr} (h : i.isIn = true → InputPhaseGoesOn s) :
    ∃ s2, inputOf i s = .goOn s2 := by
  rcases inputOf_cases i s with
    ⟨-, e⟩ | ⟨-, -, v, -, ⟨-, e⟩ | ⟨-, -, e⟩⟩ | ⟨hi, ha, hx, -⟩ | ⟨hi, ha, ht, hx, -⟩
  · exact ⟨_, e⟩
  · exact ⟨_, e⟩
  · exact ⟨_, e⟩
  · obtain ⟨-, v, hv⟩ := h hi ha
    simp [hx] at hv
  · obtain ⟨hok, -⟩ := h hi ha
    exact absurd ((hok ht).symm.trans hx) (by decide)

/-- NONINTERFERENCE: from two states that agree on at least the registers an instruction reads, it gives two
states that agree on the same registers, and, unless it ends in phase 2, on what it writes. -/
theorem exec_agree {i : Instr} (h : Agree P s u) (hr : s.status = .running)
    (hreads : ∀ q ∈ readsOf i, P q) :
    ∃ t t', exec i s = .next t ∧ exec i u = .next t' ∧ Agree P t t' ∧
      ((i.isIn = true → InputPhaseGoesOn s) → ∀ q ∈ writesOf i, t.reg q = t'.reg q) := by
  refine ⟨_, _, (exec_eq_runStep i s).trans (runStep_of_running hr),
    (exec_eq_runStep i u).trans (runStep_of_running (h.status.symm.trans hr)), ?_⟩
  have hin := agree_inputOf h i
  generalize hs : inputOf i s = p, hu : inputOf i u = p' at hin
  cases hin with
  | goOn h2 =>
    have ht := agree_phases_of_goOn h2 hreads hs hu
    exact ⟨ht.mono fun _ => .inl, fun _ q hq => ht.reg q (.inr hq)⟩
  | stop h2 =>
    rw [phases_of_inputStop hs, phases_of_inputStop hu]
    refine ⟨h2, fun hgo => ?_⟩
    obtain ⟨s2, hs2⟩ := exists_inputOf_goOn hgo
    simp [hs] at hs2

end Phases

/-- An instruction that does not read `r` gives from two states that differ in `r` alone two states that
differ in `r` and the trace texts at most; where it writes `r`, and is not stopped in phase 2, in the texts
alone. -/
theorem exec_setReg {i : Instr} {r : Reg} (hi : r ∉ readsOf i) {s : State} (hr : s.status = .running)
    (x v : r.Val) :
    ∃ t u, exec i s = .next t ∧ exec i (s.setReg r x) = .next u ∧
      t.traceLog.length = u.traceLog.length ∧
      ((i.isIn = true → InputPhaseGoesOn s) → r ∈ writesOf i → t.reg r = u.reg r) ∧
      ({ t.setReg r v with traceLog := [] } : State) = { u.setReg r v with traceLog := [] } := by
  obtain ⟨t, u, ht, hu, h, hw⟩ :=
    exec_agree (Agree.setReg s r x) hr fun q hq => ne_of_mem_of_not_mem hq hi
  exact ⟨t, u, ht, hu, h.logLength, fun hgo => hw hgo r, h.cleared_eq v⟩

/-! ### The program counter -/

theorem addressAfter_eq (pc : Nibble) : addressAfter pc = pcIncrement pc := by
  revert pc
  decide

theorem nextOf_eq_committedPc (i : Instr) (s : State) : nextOf i s = committedPc i s := by
  cases i <;> simp [nextOf, committedPc, sequential, addressAfter_eq]

/-- Phase 2 changes nothing that the next pc is computed from. -/
theorem nextOf_of_inputOf_goOn {i : Instr} {s s2 : State} (h : inputOf i s = .goOn s2) :
    nextOf i s2 = committedPc i s := by
  obtain ⟨-, hpc, hreg⟩ := inputOf_goOn_keeps h
  have hc : s2.carry = s.carry := hreg .carry (by simp)
  rw [nextOf_eq_committedPc]
  cases i <;> simp [committedPc, hpc, hc]

/-- A step of a running core commits the next pc where it completes, and keeps `pc` where it aborts. -/
theorem exec_pc (i : Instr) {s : State} (hr : s.status = .running) :
    ∃ t, exec i s = .next t ∧ (t.status = .running → t.pc = committedPc i s) ∧
      (t.status ≠ .running → t.pc = s.pc) := by
  rcases exec_cases i hr with
    ⟨t, hin, e⟩ | ⟨s2, hin, -, e⟩ | ⟨s2, hin, -, -, e⟩ | ⟨s2, hin, -, -, e⟩
  · obtain ⟨hst, hpc, -⟩ := inputOf_stop_keeps hin
    exact ⟨t, e, fun h => absurd h hst, fun _ => hpc⟩
  all_goals
    obtain ⟨-, hpc, -, hst, -⟩ := effectOf_keeps i s2
    obtain ⟨hst2, hpc2, -⟩ := inputOf_goOn_keeps hin
    refine ⟨_, e, ?_, ?_⟩ <;> simp [hst, hst2, hr, hpc, hpc2, nextOf_of_inputOf_goOn hin]

/-! ### The carry flag -/

theorem effectOf_addA_carry (imm : Nibble) (s : State) :
    (effectOf (.addA imm) s).carry = decide (15 < s.a.toNat + imm.toNat) :=
  aluCarry_eq s.a imm

theorem effectOf_addB_carry (imm : Nibble) (s : State) :
    (effectOf (.addB imm) s).carry = decide (15 < s.b.toNat + imm.toNat) :=
  aluCarry_eq s.b imm

/-- An instruction other than `IN` leaves in every register what phase 3 makes of the state before it. -/
theorem exec_reg_of_not_in {i : Instr} (hi : i.isIn = false) {s : State} (hr : s.status = .running) :
    ∃ t, exec i s = .next t ∧ ∀ q, t.reg q = (effectOf i s).reg q := by
  have hex := (exec_eq_runStep i s).trans (runStep_of_running hr)
  refine ⟨_, hex, ?_⟩
  rcases exec_reg_cases hex with hin | ⟨s2, hin, ht⟩ <;>
    rw [inputOf_of_noRead (.inl hi)] at hin <;> cases hin
  exact ht

/-! ### The input latch -/

/-- The latch after a step is what phase 2 left in it. -/
theorem exec_inLatch {i : Instr} {s t : State} (h : exec i s = .next t) :
    t.inLatch = (inputOf i s).state.inLatch := by
  rcases exec_reg_cases h with hin | ⟨s2, hin, ht⟩
  · simp [hin]
  · obtain ⟨hl, -⟩ := effectOf_keeps i s2
    have heq : t.inLatch = (effectOf i s2).inLatch := ht .inLatch
    simp [hin, heq, hl]

theorem inputOf_inLatch_of_promptFail {i : Instr} {s : State} (hi : i.isIn = true)
    (ha : s.inputAttached = true) (ht : s.traceAttached = true) (h0 : s.traceAnswerAt 0 = .fail) :
    (inputOf i s).state.inLatch = s.inLatch := by
  rw [inputOf_of_promptFail hi ha ht h0]
  rfl

theorem inputOf_inLatch_of_exhausted {i : Instr} {s : State} (hi : i.isIn = true)
    (ha : s.inputAttached = true) (hv : s.inAnswerAt 0 = .exhausted) :
    (inputOf i s).state.inLatch = s.inLatch := by
  cases ht : s.traceAttached with
  | false => rw [inputOf_of_exhausted hi ha ht hv]; rfl
  | true =>
    cases h0 : s.traceAnswerAt 0 with
    | ok => rw [inputOf_of_prompt_exhausted hi ha ht h0 hv]; rfl
    | fail => exact inputOf_inLatch_of_promptFail hi ha ht h0

theorem inputOf_inLatch_of_value {i : Instr} {s : State} {v : Nibble} (hi : i.isIn = true)
    (ha : s.inputAttached = true) (hv : s.inAnswerAt 0 = .value v)
    (hok : s.traceAttached = true → s.traceAnswerAt 0 = .ok) : (inputOf i s).state.inLatch = v := by
  cases ht : s.traceAttached with
  | false => rw [inputOf_of_value hi ha ht hv]; rfl
  | true => rw [inputOf_of_prompt_value hi ha ht (hok ht) hv]; rfl

theorem effectOf_setInLatch {i : Instr} (hi : i.isIn = false) (x : Nibble) (s : State) :
    effectOf i (s.setInLatch x) = (effectOf i s).setInLatch x := by
  cases i with
  | inA | inB => simp [Instr.isIn] at hi
  | _ => rfl

theorem nextOf_setInLatch (i : Instr) (x : Nibble) (s : State) :
    nextOf i (s.setInLatch x) = nextOf i s := by
  cases i <;> rfl

/-- The step of an instruction other than `IN` carries the latch along unseen, in the trace lines too. -/
theorem exec_setInLatch {i : Instr} (hi : i.isIn = false) {s : State} (hr : s.status = .running)
    (x : Nibble) : ∃ t, exec i s = .next t ∧ exec i (s.setInLatch x) = .next (t.setInLatch x) := by
  have hin (w : State) : inputOf i w = .goOn w := inputOf_of_noRead (.inl hi)
  have hrx : (s.setInLatch x).status = .running := hr
  cases ht : s.traceAttached with
  | false =>
    refine ⟨_, exec_of_untraced hr (hin s) ht, ?_⟩
    rw [exec_of_untraced hrx (hin _) ht, effectOf_setInLatch hi, nextOf_setInLatch]
    rfl
  | true =>
    cases h0 : s.traceAnswerAt 0 with
    | ok =>
      refine ⟨_, exec_of_lineOk hr (hin s) ht h0, ?_⟩
      rw [exec_of_lineOk hrx (hin _) ht h0, effectOf_setInLatch hi, nextOf_setInLatch]
      rfl
    | fail =>
      refine ⟨_, exec_of_lineFail hr (hin s) ht h0, ?_⟩
      rw [exec_of_lineFail hrx (hin _) ht h0, effectOf_setInLatch hi]
      rfl

end Sys2Proof.Machine
end

section
/-! The statements on the parts of the state (10_state.md R22 to R28). -/

open Sys2Proof Sys2Proof.Machine

/-- Settles O24: only the commit phase writes `pc`, and phase 2 leaves what the next pc is computed from. -/
theorem pcIsCommittedByCompletedStepsOnly : Obligations.PcIsCommittedByCompletedStepsOnly :=
  ⟨rfl, fun s hr => exec_pc (decode (fetch s)) hr⟩

/-- Settles O25, from the frame and the noninterference of `exec` at the register `a`. -/
theorem registerAWritersAndReaders : Obligations.RegisterAWritersAndReaders := by
  refine ⟨rfl, fun i s t h hi => exec_reg_of_not_written h (mt (a_mem_writesOf i).mp hi), ?_⟩
  intro i s x hr hi
  obtain ⟨t, u, ht, hu, hlen, hw, heq⟩ :=
    exec_setReg (r := .a) (mt (a_mem_readsOf i).mp hi) hr x (0 : Nibble)
  refine ⟨t, u, ht, hu, hlen, fun hop => ?_, fun hop hgo => ?_, heq⟩
  · exact hw (inputPhaseGoesOn_of_opcode hop (by decide)) ((a_mem_writesOf i).mpr (by grind))
  · exact hw (fun _ => hgo) ((a_mem_writesOf i).mpr (by simp [hop]))

/-- Settles O26, from the frame and the noninterference of `exec` at the register `b`. -/
theorem registerBWritersAndReaders : Obligations.RegisterBWritersAndReaders := by
  refine ⟨rfl, fun i s t h hi => exec_reg_of_not_written h (mt (b_mem_writesOf i).mp hi), ?_⟩
  intro i s x hr hi
  obtain ⟨t, u, ht, hu, hlen, hw, heq⟩ :=
    exec_setReg (r := .b) (mt (b_mem_readsOf i).mp hi) hr x (0 : Nibble)
  refine ⟨t, u, ht, hu, hlen, fun hop => ?_, fun hop hgo => ?_, heq⟩
  · exact hw (inputPhaseGoesOn_of_opcode hop (by decide)) ((b_mem_writesOf i).mpr (by grind))
  · exact hw (fun _ => hgo) ((b_mem_writesOf i).mpr (by simp [hop]))

/-- Settles O27: as for the registers, and what an `ADD` leaves in the carry flag is the adder's carry out. -/
theorem carryWrittenByAddsReadByJc : Obligations.CarryWrittenByAddsReadByJc := by
  refine ⟨rfl, fun i s t h hi => exec_reg_of_not_written h (mt (carry_mem_writesOf i).mp hi), ?_, ?_⟩
  · intro imm s hr
    obtain ⟨t, ht, hregA⟩ := exec_reg_of_not_in (i := .addA imm) rfl hr
    obtain ⟨u, hu, hregB⟩ := exec_reg_of_not_in (i := .addB imm) rfl hr
    exact ⟨⟨t, ht, (hregA .carry).trans (effectOf_addA_carry imm s)⟩,
      ⟨u, hu, (hregB .carry).trans (effectOf_addB_carry imm s)⟩⟩
  · intro i s x hr hi
    obtain ⟨t, u, ht, hu, hlen, hw, heq⟩ :=
      exec_setReg (r := .carry) (mt (carry_mem_readsOf i).mp hi) hr x false
    exact ⟨t, u, ht, hu, hlen, fun hop =>
      hw (inputPhaseGoesOn_of_opcode hop (by decide)) ((carry_mem_writesOf i).mpr hop), heq⟩

/-- Settles O28: the latch after a step is what phase 2 left in it, and other instructions than `IN` carry
it along unseen. -/
theorem inputLatchWritersAndReaders : Obligations.InputLatchWritersAndReaders := by
  refine ⟨rfl, fun i s t h hi => exec_reg_of_not_written h (mt (inLatch_mem_writesOf i).mp hi), ?_, ?_⟩
  · intro i s t h hi
    rw [exec_inLatch h]
    refine ⟨fun ha => ?_, inputOf_inLatch_of_promptFail hi, inputOf_inLatch_of_exhausted hi,
      fun v ha hv hok => inputOf_inLatch_of_value hi ha hv hok⟩
    rw [inputOf_of_noRead (.inr ha)]
    rfl
  · intro i s x hr hi
    obtain ⟨t, ht, hu⟩ := exec_setInLatch (Bool.eq_false_iff.mpr (mt (isIn_eq_true_iff i).mp hi)) hr x
    exact ⟨t, t.setInLatch x, ht, hu, rfl⟩

/-- Settles O29: no instruction has `out` among what it reads, and the two `OUT` alone write it. -/
theorem outputLatchWrittenByOutReadByNone : Obligations.OutputLatchWrittenByOutReadByNone := by
  refine ⟨rfl, fun _ => rfl,
    fun i s t h hi => exec_reg_of_not_written h (mt (out_mem_writesOf i).mp hi), ?_⟩
  intro i s x hr
  obtain ⟨t, u, ht, hu, hlen, hw, heq⟩ :=
    exec_setReg (r := .out) (out_not_mem_readsOf i) hr x (0 : Nibble)
  exact ⟨t, u, ht, hu, hlen, fun hop =>
    hw (inputPhaseGoesOn_of_opcode hop (by decide)) ((out_mem_writesOf i).mpr hop), heq⟩

end

section
/-! SUPPORT. The frame of a step on the ROM and the run configuration: no phase writes them, so a step keeps
them however it ends (spec 20_memory.md R53; 10_state.md R29; 92_eei_decisions.md D8). -/

namespace Sys2Proof.Machine

/-- Phase 2, however it ends, writes neither the ROM nor the run configuration (40_execution_cycle.md R103). -/
theorem inputOf_keeps_romAndConfig (i : Instr) (s : State) :
    (inputOf i s).state.rom = s.rom ∧ (inputOf i s).state.inputAttached = s.inputAttached ∧
    (inputOf i s).state.traceAttached = s.traceAttached := by
  rcases inputOf_cases i s with
    ⟨-, e⟩ | ⟨-, -, v, -, ⟨-, e⟩ | ⟨-, -, e⟩⟩ | ⟨-, -, -, ⟨-, e⟩ | ⟨-, -, e⟩⟩ | ⟨-, -, -, -, e⟩ <;>
    rw [e] <;> exact ⟨rfl, rfl, rfl⟩

/-- A step, whether it completes or aborts in phase 2 or 5, keeps the ROM and the run configuration. -/
theorem exec_keeps_romAndConfig (i : Instr) {s : State} (hr : s.status = .running) :
    ∃ t, exec i s = .next t ∧ t.rom = s.rom ∧
      t.inputAttached = s.inputAttached ∧ t.traceAttached = s.traceAttached := by
  have hinput := inputOf_keeps_romAndConfig i s
  rcases exec_cases i hr with
    ⟨t, hin, e⟩ | ⟨s2, hin, -, e⟩ | ⟨s2, hin, -, -, e⟩ | ⟨s2, hin, -, -, e⟩ <;>
    rw [hin] at hinput
  · exact ⟨t, e, hinput⟩
  all_goals
    obtain ⟨-, -, hrom, -, hattIn, hattTrace, -⟩ := effectOf_keeps i s2
    obtain ⟨hrom2, hattIn2, hattTrace2⟩ := hinput
    exact ⟨_, e, hrom.trans hrom2, hattIn.trans hattIn2, hattTrace.trans hattTrace2⟩

end Sys2Proof.Machine
end

section
/-! The statement on the ROM and the run configuration (20_memory.md R53). -/

open Sys2Proof Sys2Proof.Machine

/-- Settles O36: `step` executes the decoded byte, and no phase of an instruction writes the ROM or the
configuration. -/
theorem romAndConfigurationAreConstant : Obligations.RomAndConfigurationAreConstant :=
  fun s hr => exec_keeps_romAndConfig (decode (fetch s)) hr

end

section
/-! SUPPORT. Encoding and decoding, from the two fields of a byte: the fields decide the byte, and decoding
and encoding keep both (spec 30_encoding.md R60, R65). -/

namespace Sys2Proof

theorem opField_encode (i : Instr) : opField (encode i) = i.opcode :=
  (Laws.EncodeFields.fields_of_append i.opcode i.lowNibble).1

theorem immField_encode (i : Instr) : immField (encode i) = i.lowNibble :=
  (Laws.EncodeFields.fields_of_append i.opcode i.lowNibble).2

/-- A byte is its two fields, the opcode above the immediate (R60). -/
theorem opField_append_immField (b : Byte) : opField b ++ immField b = b :=
  (BitVec.extractLsb'_append_extractLsb'_eq_extractLsb' (x := b) (w := 8) rfl).trans
    BitVec.extractLsb'_eq_self

theorem decode_encode (i : Instr) : decode (encode i) = i := by
  simp only [decode, opField_encode, immField_encode]
  cases i <;> rfl

/-- A decoded instruction keeps the byte's opcode: the sixteen rows of R63 cover every value of four bits. -/
theorem decode_opcode (b : Byte) : (decode b).opcode = opField b := by
  apply BitVec.eq_of_toNat_eq
  fun_cases decode b
  case case16 => -- opcode 0xF, the only value that is left
    have hlt : (opField b).toNat < 16 := (opField b).isLt
    change 15 = (opField b).toNat
    grind
  all_goals exact Eq.symm ‹_›

theorem decode_lowNibble (b : Byte) : (decode b).lowNibble = immField b := by
  fun_cases decode b <;> rfl

theorem encode_decode (b : Byte) : encode (decode b) = b := by
  rw [encode, decode_opcode, decode_lowNibble, opField_append_immField]

theorem encode_eq_iff (i : Instr) (b : Byte) : encode i = b ↔ decode b = i :=
  ⟨fun h => h ▸ decode_encode i, fun h => h ▸ encode_decode b⟩

end Sys2Proof
end

section
/-! The statements on the encoding (30_encoding.md E1 to E4). -/

open Sys2Proof

/-- Settles O1: each of the two functions undoes the other, since both keep opcode and nibble. -/
theorem encodeAndDecodeAreInverse : Obligations.EncodeAndDecodeAreInverse :=
  fun i b => ⟨encode_eq_iff i b, opField_encode i, immField_encode i⟩

/-- Settles O2, byte by byte. -/
theorem sampleWordsDecode : Obligations.SampleWordsDecode := by
  unfold Obligations.SampleWordsDecode
  decide

end

section
/-! SUPPORT. The control table read at an instruction's own opcode and nibble gives the three parts of its
step (spec 30_encoding.md R67), and what those parts owe to the nibble (R64). -/

namespace Sys2Proof.Machine

theorem inputOf_eq_control (i : Instr) :
    inputOf i = if (controlOf i.opcode).inReq then inputPhase else noInputPhase := by
  cases i <;> rfl

theorem effectOf_eq_control (i : Instr) : effectOf i = (controlOf i.opcode).effect i.lowNibble := by
  cases i <;> rfl

theorem nextOf_eq_control (i : Instr) : nextOf i = (controlOf i.opcode).nextPc i.lowNibble := by
  cases i <;> rfl

/-- The opcodes that ignore bits 3:0 (R64). -/
def ignoringOpcodes : List Nibble := [0x1, 0x2, 0x4, 0x7, 0x8, 0x9, 0xB, 0xC, 0xD]

/-- No control of an opcode that ignores the nibble uses it. -/
theorem control_ignores_imm {op : Nibble} (h : op ∈ ignoringOpcodes) (m n : Nibble) :
    (controlOf op).effect m = (controlOf op).effect n ∧
    (controlOf op).nextPc m = (controlOf op).nextPc n := by
  fin_cases h <;> exact ⟨rfl, rfl⟩

/-! ### States that differ in the `IM:` fields of their trace lines -/

@[simp] theorem State.withoutIm_setPc (v : Nibble) (s : State) :
    (s.setPc v).withoutIm = s.withoutIm.setPc v := rfl

@[simp] theorem State.withoutIm_abort (r : AbortReason) (s : State) :
    (s.abort r).withoutIm = s.withoutIm.abort r := rfl

/-- Lines of instructions with one opcode are recorded alike but for their `IM:` fields. -/
theorem State.withoutIm_recordTrace_line {i j : Instr} (hop : i.opcode = j.opcode) (s : State) :
    (s.recordTrace (.line (traceLineOf i s))).withoutIm =
      (s.recordTrace (.line (traceLineOf j s))).withoutIm := by
  simp [State.withoutIm, State.recordTrace, TraceRecord.withoutIm, traceLineOf, hop]

/-- Instructions with one opcode and the same three parts end alike but for the `IM:` fields, however the
step ends. -/
theorem exec_withoutIm_of_parts {i j : Instr} (hop : i.opcode = j.opcode) (hin : inputOf i = inputOf j)
    (heff : effectOf i = effectOf j) (hnext : nextOf i = nextOf j) (s : State) :
    mapNext State.withoutIm (exec i s) = mapNext State.withoutIm (exec j s) := by
  cases hs : s.status with
  | aborted r => rw [exec_eq_runStep, exec_eq_runStep, runStep_of_aborted hs, runStep_of_aborted hs]
  | running =>
    have hline := State.withoutIm_recordTrace_line hop
    rcases exec_cases i hs with
      ⟨t, h, e⟩ | ⟨s2, h, ht, e⟩ | ⟨s2, h, ht, h0, e⟩ | ⟨s2, h, ht, h0, e⟩ <;>
      rw [hin] at h
    · rw [e, exec_of_inputStop hs h]
    · rw [e, exec_of_untraced hs h ht, heff, hnext]
    · rw [e, exec_of_lineOk hs h ht h0]
      simp [mapNext, heff, hnext, hline]
    · rw [e, exec_of_lineFail hs h ht h0]
      simp [mapNext, heff, hline]

end Sys2Proof.Machine
end

section
/-! The statements on the ignored nibble and on the control table (30_encoding.md R64, R67). -/

open Sys2Proof Sys2Proof.Machine

/-- Settles O3: the three parts of such a step come from the opcode alone, so that the nibble stands in the
trace line only. -/
theorem ignoredNibbleExecutesAlike : Obligations.IgnoredNibbleExecutesAlike := by
  intro i j s hop hmem
  obtain ⟨heff, hnext⟩ := control_ignores_imm hmem i.lowNibble j.lowNibble
  exact exec_withoutIm_of_parts hop (by rw [inputOf_eq_control, inputOf_eq_control, hop])
    (by rw [effectOf_eq_control, effectOf_eq_control, heff, hop])
    (by rw [nextOf_eq_control, nextOf_eq_control, hnext, hop]) s

/-- Settles O41: the table read at the byte's fields is the table read at the decoded instruction's own
opcode and nibble. -/
theorem controlTableRunsTheSameCore : Obligations.ControlTableRunsTheSameCore := by
  intro b s
  rw [exec_eq_runStep, inputOf_eq_control, effectOf_eq_control, nextOf_eq_control, decode_opcode,
    decode_lowNibble]
  rfl

end

section
/-! SUPPORT. What assembling a text gives, from its lines alone: every line is skipped or emits, at most 16
emit, and the ROM is the image of what they emit (spec 30_encoding.md R70, R86, R87). -/

namespace Sys2Proof.Machine

/-! ### The ROM of an image -/

/-- Entry `k` of an image placed from `low` on is its byte `k`, and past its end the unfilled byte. -/
theorem lookup_romFrom {low : Nat} {bytes : List Byte} (h : low + bytes.length ≤ 16) (k : Nat) :
    Memory.lookup (romFrom low bytes) (low + k) = (bytes[k]?).getD unfilledByte := by
  induction bytes generalizing low k with
  | nil => rfl
  | cons b rest ih =>
    rw [List.length_cons] at h
    have hfit : low + 1 + rest.length ≤ 16 := by omega
    by_cases hb : b = unfilledByte <;> cases k with
    | zero =>
      have hbelow := Memory.lookup_below (Nat.lt_succ_self low) (romFrom_wfFrom hfit)
      simp [romFrom, hb, Memory.lookup, hbelow]
    | succ k =>
      have hrest := ih hfit k
      have hne : low ≠ low + k + 1 := by omega
      rw [Nat.add_right_comm] at hrest
      simp [romFrom, hb, Memory.lookup, ← Nat.add_assoc, hrest, hne]

theorem read_romFrom {bytes : List Byte} (h : bytes.length ≤ 16) (k : Nibble) :
    Memory.read (romFrom 0 bytes) k = (bytes[k.toNat]?).getD unfilledByte := by
  simpa [Memory.read] using lookup_romFrom (low := 0) (by simpa using h) k.toNat

/-! ### The instructions that lines emit -/

@[simp] theorem emittedBy_nil : emittedBy [] = [] := rfl

theorem emittedBy_cons_of_skip {line : List Char} (h : asmLine line = .skip) (rest : List (List Char)) :
    emittedBy (line :: rest) = emittedBy rest := by
  simp [emittedBy, h]

theorem emittedBy_cons_of_emit {line : List Char} {i : Instr} (h : asmLine line = .emit i)
    (rest : List (List Char)) : emittedBy (line :: rest) = i :: emittedBy rest := by
  simp [emittedBy, h]

theorem emittedBy_append (lines rest : List (List Char)) :
    emittedBy (lines ++ rest) = emittedBy lines ++ emittedBy rest :=
  List.filterMap_append

/-- The line is read without an error and without a form the spec leaves open. -/
def LineReads (line : List Char) : Prop := asmLine line = .skip ∨ ∃ i, asmLine line = .emit i

/-! ### The lines of a text -/

section Lines

variable {n : Nat} {bytes : List Byte} {lines : List (List Char)}

/-- Lines that read, and emit no more than there are slots, take one slot for each instruction. -/
theorem asmFrom_append (hreads : ∀ line ∈ lines, LineReads line)
    (hfit : bytes.length + (emittedBy lines).length ≤ 16) (rest : List (List Char)) :
    asmFrom n bytes (lines ++ rest) =
      asmFrom (n + lines.length) (bytes ++ (emittedBy lines).map encode) rest := by
  induction lines generalizing n bytes with
  | nil => simp
  | cons line lines ih =>
    rw [List.forall_mem_cons] at hreads
    rcases hreads with ⟨hl | ⟨i, hl⟩, hreads⟩
    · rw [emittedBy_cons_of_skip hl] at hfit ⊢
      calc asmFrom n bytes (line :: (lines ++ rest))
          = asmFrom (n + 1) bytes (lines ++ rest) := asmFromWith_of_skip hl
        _ = _ := by rw [ih hreads hfit, List.length_cons, Nat.add_right_comm, Nat.add_assoc]
    · rw [emittedBy_cons_of_emit hl] at hfit ⊢
      rw [List.length_cons] at hfit
      calc asmFrom n bytes (line :: (lines ++ rest))
          = asmFrom (n + 1) (bytes ++ [encode i]) (lines ++ rest) := asmFromWith_of_emit hl (by omega)
        _ = _ := by
          rw [ih hreads (by rw [List.length_append, List.length_singleton]; omega), List.append_assoc,
            List.length_cons, Nat.add_right_comm, Nat.add_assoc]
          rfl

/-- Where lines assemble, each of them reads and what they emit fits the ROM. -/
theorem asmFrom_assembled_reads {s : State} (hbytes : bytes.length ≤ 16)
    (h : asmFrom n bytes lines = .assembled s) :
    (∀ line ∈ lines, LineReads line) ∧ bytes.length + (emittedBy lines).length ≤ 16 := by
  induction lines generalizing n bytes with
  | nil => exact ⟨by simp, by simpa using hbytes⟩
  | cons line lines ih =>
    cases hl : asmLine line with
    | skip =>
      obtain ⟨hreads, hfit⟩ := ih hbytes ((asmFromWith_of_skip hl).symm.trans h)
      rw [emittedBy_cons_of_skip hl]
      exact ⟨List.forall_mem_cons.mpr ⟨.inl hl, hreads⟩, hfit⟩
    | error k => cases (asmFromWith_of_error hl).symm.trans h
    | notAdmitted p => cases (asmFromWith_of_notAdmitted hl).symm.trans h
    | emit i =>
      rcases Nat.lt_or_ge bytes.length 16 with hb | hb
      · obtain ⟨hreads, hfit⟩ :=
          ih (by simpa using hb) ((asmFromWith_of_emit hl hb).symm.trans h)
        rw [emittedBy_cons_of_emit hl]
        refine ⟨List.forall_mem_cons.mpr ⟨.inr ⟨i, hl⟩, hreads⟩, ?_⟩
        simpa [Nat.add_right_comm, Nat.add_assoc, Nat.add_comm 1] using hfit
      · cases (asmFromWith_of_emit_full hl hb).symm.trans h

/-- WHAT ASSEMBLES: exactly the texts whose lines read and emit at most 16 instructions, whatever their line
numbers, and to the reset state with the ROM of those instructions. -/
theorem asmFrom_assembled_iff {s : State} :
    asmFrom n [] lines = .assembled s ↔
      (∀ line ∈ lines, LineReads line) ∧ (emittedBy lines).length ≤ 16 ∧
      s = { State.reset with rom := romFrom 0 ((emittedBy lines).map encode) } := by
  have hall : (∀ line ∈ lines, LineReads line) → (emittedBy lines).length ≤ 16 →
      asmFrom n [] lines =
        .assembled { State.reset with rom := romFrom 0 ((emittedBy lines).map encode) } := by
    intro hreads hfit
    have := asmFrom_append (n := n) (bytes := []) hreads (by simpa using hfit) []
    rw [List.append_nil] at this
    exact this
  constructor
  · intro h
    obtain ⟨hreads, hfit⟩ := asmFrom_assembled_reads (bytes := []) (Nat.zero_le 16) h
    rw [List.length_nil, Nat.zero_add] at hfit
    exact ⟨hreads, hfit, AsmResult.assembled.inj (h.symm.trans (hall hreads hfit))⟩
  · rintro ⟨hreads, hfit, rfl⟩
    exact hall hreads hfit

end Lines

/-- A line that holds only a comment is skipped (R71, R75). -/
theorem asmLine_of_comment {mark : Char} (hmark : mark ∈ [';', '#']) {comment : List Char}
    (hlen : comment.length ≤ 253) : asmLine (mark :: comment) = .skip := by
  have hcut : cutComment (mark :: comment) = [] := by
    rw [cutComment, if_pos (by simpa using hmark)]
  exact asmLineWith_of_fields (fields := []) (by rw [List.length_cons]; omega) (by rw [hcut]; rfl) rfl _

/-- A line without a newline in it, and the newline after it, are the first line of a text (R70). -/
theorem sourceLines_append_newline {line : List Char} (h : '\n' ∉ line) (rest : List Char) :
    sourceLines (line ++ '\n' :: rest) = line :: sourceLines rest :=
  splitAtChars_append_sep rfl (fun x hx => by simpa using ne_of_mem_of_not_mem hx h) rest

end Sys2Proof.Machine
end

section
/-! The statements on what assembles (30_encoding.md R71, R75, R86, R87, R91). -/

open Sys2Proof Sys2Proof.Machine

/-- Settles O42: the ROM is the image of the emitted bytes, and decoding undoes encoding at each of them. -/
theorem assembledRomDecodesToItsLines : Obligations.AssembledRomDecodesToItsLines := by
  intro text s h
  obtain ⟨-, hfit, rfl⟩ := asmFrom_assembled_iff.mp h
  have hread := read_romFrom (bytes := (emittedBy (sourceLines text)).map encode) (by simpa using hfit)
  refine ⟨hfit, fun k i hi => ?_, fun k hk => ?_, rfl⟩
  · simp [hread, hi, decode_encode]
  · simp [hread, hk, unfilledByte]

/-- Settles O45: the comment line is skipped, and which line a text starts at does not matter where it
assembles. -/
theorem commentLinesTakeNoSlot : Obligations.CommentLinesTakeNoSlot := by
  intro mark comment text s hmark hlen hnl
  have hmark_ne : '\n' ≠ mark := by rintro rfl; simp at hmark
  have hlines : sourceLines (mark :: comment ++ '\n' :: text) = (mark :: comment) :: sourceLines text :=
    sourceLines_append_newline (List.not_mem_cons_of_ne_of_not_mem hmark_ne hnl) text
  calc assemble (mark :: comment ++ '\n' :: text) = .assembled s
      ↔ asmFrom 1 [] ((mark :: comment) :: sourceLines text) = .assembled s := by rw [← hlines]; rfl
    _ ↔ asmFrom 2 [] (sourceLines text) = .assembled s := by
      rw [asmFrom, asmFromWith_of_skip (asmLine_of_comment hmark hlen)]; rfl
    _ ↔ assemble text = .assembled s := asmFrom_assembled_iff.trans asmFrom_assembled_iff.symm

end

section
/-! SUPPORT. Reading the fields of a source line: how a line is built up from fields, gaps and blanks, and
that the assembler cuts it back into those fields (spec 30_encoding.md R71, R72, R74, R84). -/

namespace Sys2Proof.Machine

/-! ### Fields and blanks -/

/-- A character that is neither whitespace, a comma, a comment mark nor a capital. -/
def isFieldChar (c : Char) : Bool :=
  !c.isWhitespace && c != ',' && c != ';' && c != '#' && !c.isUpper

/-- A text that stands in a line as one field. -/
def IsField (w : List Char) : Prop := w ≠ [] ∧ w.all isFieldChar = true

theorem isFieldChar_of_isDigit {c : Char} (h : c.isDigit = true) : isFieldChar c = true := by
  have hupper : c.isUpper = false := by
    simp only [Char.isDigit, Char.isUpper, Bool.and_eq_true, decide_eq_true_eq] at h ⊢
    grind
  have hspace : c.isWhitespace = false := by
    rw [Bool.eq_false_iff]
    intro hw
    simp only [Char.isWhitespace, Bool.or_eq_true, decide_eq_true_eq] at hw
    rcases hw with ((rfl | rfl) | rfl) | rfl <;> cases h
  have hne : c ≠ ',' ∧ c ≠ ';' ∧ c ≠ '#' := by
    refine ⟨?_, ?_, ?_⟩ <;> (rintro rfl; cases h)
  simp [isFieldChar, hupper, hspace, hne]

/-- A number is a field. -/
theorem isField_of_digits {w : List Char} (h0 : w ≠ []) (h : w.all Char.isDigit = true) : IsField w :=
  ⟨h0, List.all_eq_true.mpr fun c hc => isFieldChar_of_isDigit (List.all_eq_true.mp h c hc)⟩

theorem not_mem_of_isBlank {w : List Char} (h : isBlank w = true) : ',' ∉ w ∧ ';' ∉ w ∧ '#' ∉ w := by
  have hw := List.all_eq_true.mp h
  refine ⟨fun hm => ?_, fun hm => ?_, fun hm => ?_⟩ <;> cases hw _ hm

namespace IsField

variable {w : List Char}

theorem not_mem (h : IsField w) : ',' ∉ w ∧ ';' ∉ w ∧ '#' ∉ w := by
  have hw := List.all_eq_true.mp h.2
  refine ⟨fun hm => ?_, fun hm => ?_, fun hm => ?_⟩ <;> cases hw _ hm

theorem not_isWhitespace (h : IsField w) : ∀ c ∈ w, c.isWhitespace = false := by
  intro c hc
  have := List.all_eq_true.mp h.2 c hc
  simp_all [isFieldChar]

theorem not_isUpper (h : IsField w) : w.any Char.isUpper = false := by
  rw [List.any_eq_false]
  intro c hc
  have := List.all_eq_true.mp h.2 c hc
  simp_all [isFieldChar]

end IsField

/-! ### Cutting at the commas and at the whitespace -/

theorem splitAtChars_append {sep : Char → Bool} {pre : List Char} (hpre : ∀ x ∈ pre, sep x = false)
    {rest w : List Char} {ws : List (List Char)} (h : splitAtChars sep rest = w :: ws) :
    splitAtChars sep (pre ++ rest) = (pre ++ w) :: ws := by
  induction pre with
  | nil => exact h
  | cons c cs ih =>
    rw [List.forall_mem_cons] at hpre
    rw [List.cons_append, splitAtChars, ih hpre.2]
    simp [hpre.1]

/-- The whitespace-separated pieces of a line, for each stretch between two commas. -/
def commaParts (line : List Char) : List (List (List Char)) :=
  (splitAtChars (· == ',') line).map (piecesOf Char.isWhitespace)

/-- A stretch that holds a field everywhere gives the fields of all stretches (R72). -/
theorem fieldsOf_of_commaParts {line : List Char} (h : [] ∉ commaParts line) :
    fieldsOf line = some (commaParts line).flatten := by
  unfold fieldsOf commaParts at *
  split
  case h_1 ws hws => simp [hws]
  case h_2 => rw [if_neg (by simpa using h)]

/-- The first comma ends the first stretch. -/
theorem commaParts_append_comma {pre : List Char} (h : ',' ∉ pre) (rest : List Char) :
    commaParts (pre ++ ',' :: rest) = piecesOf Char.isWhitespace pre :: commaParts rest := by
  unfold commaParts
  rw [splitAtChars_append_sep rfl fun x hx => by simpa using ne_of_mem_of_not_mem hx h]
  rfl

theorem commaParts_of_noComma {w : List Char} (h : ',' ∉ w) :
    commaParts w = [piecesOf Char.isWhitespace w] := by
  unfold commaParts
  rw [splitAtChars_of_none fun x hx => by simpa using ne_of_mem_of_not_mem hx h]
  rfl

/-- A text without a comma stands in the first stretch of what follows. -/
theorem exists_commaParts_append (rest : List Char) :
    ∃ p ps, commaParts rest = piecesOf Char.isWhitespace p :: ps ∧
      ∀ pre, ',' ∉ pre → commaParts (pre ++ rest) = piecesOf Char.isWhitespace (pre ++ p) :: ps := by
  obtain ⟨p, ps, hsplit⟩ := List.exists_cons_of_ne_nil (splitAtChars_ne_nil (· == ',') rest)
  refine ⟨p, ps.map (piecesOf Char.isWhitespace), by rw [commaParts, hsplit, List.map_cons], ?_⟩
  intro pre h
  rw [commaParts, splitAtChars_append (fun x hx => by simpa using ne_of_mem_of_not_mem hx h) hsplit,
    List.map_cons]

/-- A field up to the whitespace after it. -/
theorem piecesOf_field_append {w gap : List Char} (hw : IsField w) (h0 : gap ≠ [])
    (hgap : isBlank gap = true) (rest : List Char) :
    piecesOf Char.isWhitespace (w ++ (gap ++ rest)) = w :: piecesOf Char.isWhitespace rest := by
  cases gap with
  | nil => exact absurd rfl h0
  | cons g gs =>
    simp only [isBlank, List.all_cons, Bool.and_eq_true] at hgap
    rw [List.cons_append, piecesOf_append_sep hgap.1 hw.1 hw.not_isWhitespace,
      piecesOf_blank_append hgap.2]

/-- A field with nothing but whitespace after it. -/
theorem piecesOf_field {w trail : List Char} (hw : IsField w) (htrail : isBlank trail = true) :
    piecesOf Char.isWhitespace (w ++ trail) = [w] := by
  by_cases h0 : trail = []
  · rw [h0, List.append_nil, piecesOf_of_none hw.1 hw.not_isWhitespace]
  · rw [← List.append_nil trail, piecesOf_field_append hw h0 htrail]
    rfl

/-! ### Lines built from fields -/

/-- The line holds these fields, without a comment, a capital or a misplaced comma. -/
structure HasFields (line : List Char) (fields : List (List Char)) : Prop where
  noMark : ';' ∉ line ∧ '#' ∉ line
  noEmptyPart : [] ∉ commaParts line
  flatten_parts : (commaParts line).flatten = fields
  noCapitals : hasCapitals fields = false

namespace HasFields

variable {line rest lead w gap trail : List Char} {fields : List (List Char)}

theorem last (hw : IsField w) (htrail : isBlank trail = true) : HasFields (w ++ trail) [w] := by
  obtain ⟨hcw, hsw, hnw⟩ := hw.not_mem
  obtain ⟨hct, hst, hnt⟩ := not_mem_of_isBlank htrail
  have hparts : commaParts (w ++ trail) = [[w]] := by
    rw [commaParts_of_noComma (by simp [hcw, hct]), piecesOf_field hw htrail]
  exact {
    noMark := by simp [hsw, hnw, hst, hnt]
    noEmptyPart := by simp [hparts]
    flatten_parts := by simp [hparts]
    noCapitals := by simp [hasCapitals, hw.not_isUpper] }

theorem blank_append (h : HasFields line fields) (hlead : isBlank lead = true) :
    HasFields (lead ++ line) fields := by
  obtain ⟨hc, hs, hn⟩ := not_mem_of_isBlank hlead
  have hparts : commaParts (lead ++ line) = commaParts line := by
    obtain ⟨p, ps, hline, happend⟩ := exists_commaParts_append line
    rw [happend lead hc, hline, piecesOf_blank_append hlead]
  exact {
    noMark := by simp [hs, hn, h.noMark]
    noEmptyPart := hparts ▸ h.noEmptyPart
    flatten_parts := hparts ▸ h.flatten_parts
    noCapitals := h.noCapitals }

theorem cons (hw : IsField w) (hgap : IsFieldGap gap) (h : HasFields rest fields) :
    HasFields (w ++ (gap ++ rest)) (w :: fields) := by
  obtain ⟨hcw, hsw, hnw⟩ := hw.not_mem
  have hcapitals : hasCapitals (w :: fields) = false := by
    rw [hasCapitals, List.any_cons, hw.not_isUpper]
    exact h.noCapitals
  rcases hgap with ⟨h0, hblank⟩ | ⟨before, after, hbefore, hafter, rfl⟩
  · obtain ⟨hcg, hsg, hng⟩ := not_mem_of_isBlank hblank
    obtain ⟨p, ps, hrest, happend⟩ := exists_commaParts_append rest
    have hparts : commaParts (w ++ (gap ++ rest)) = (w :: piecesOf Char.isWhitespace p) :: ps := by
      rw [← List.append_assoc, happend (w ++ gap) (by simp [hcw, hcg]), List.append_assoc,
        piecesOf_field_append hw h0 hblank]
    have hne := h.noEmptyPart
    have hflat := h.flatten_parts
    rw [hrest] at hne hflat
    exact {
      noMark := by simp [hsw, hnw, hsg, hng, h.noMark]
      noEmptyPart := by simp_all
      flatten_parts := by simp_all
      noCapitals := hcapitals }
  · obtain ⟨hcb, hsb, hnb⟩ := not_mem_of_isBlank hbefore
    have hrest := h.blank_append hafter
    have hparts : commaParts (w ++ (before ++ ',' :: after ++ rest)) = [w] :: commaParts (after ++ rest) := by
      rw [List.append_assoc, List.cons_append, ← List.append_assoc,
        commaParts_append_comma (by simp [hcw, hcb]), piecesOf_field hw hbefore]
    have hmark := hrest.noMark
    exact {
      noMark := by simp_all
      noEmptyPart := by rw [hparts]; simp [hrest.noEmptyPart]
      flatten_parts := by rw [hparts]; simp [hrest.flatten_parts]
      noCapitals := hcapitals }

/-- Such a line is read from its fields. -/
theorem asmLine_eq (h : HasFields line fields) (hlen : line.length ≤ 254) :
    asmLine line = asmFields .admittedOnly line fields := by
  have hcut : cutComment line = line :=
    cutComment_of_none fun x hx =>
      ⟨ne_of_mem_of_not_mem hx h.noMark.1, ne_of_mem_of_not_mem hx h.noMark.2⟩
  refine asmLineWith_of_fields hlen ?_ h.noCapitals _
  rw [hcut, fieldsOf_of_commaParts h.noEmptyPart, h.flatten_parts]

end HasFields

end Sys2Proof.Machine
end

section
/-! SUPPORT. The lines that end in a number (spec 30_encoding.md R76, R77, R79 to R81, R84) and the canonical
line of every instruction that has a mnemonic (R82, R85). -/

namespace Sys2Proof.Machine

/-! ### Numbers -/

theorem decimalValue_of_digits {w : List Char} {n : Nat} (h0 : w ≠ []) (hd : w.all Char.isDigit = true)
    (hn : w.foldl (fun acc c => 10 * acc + (c.toNat - 48)) 0 = n) (hlimit : n ≤ 32767) :
    decimalValue w = some n := by
  rw [decimalValue, if_neg h0, decimalFrom_of_digits hd, hn]
  exact if_pos hlimit

/-- A number is no register name. -/
theorem digits_ne_register {w : List Char} (h : w.all Char.isDigit = true) : w ≠ ['a'] ∧ w ≠ ['b'] := by
  constructor <;> (rintro rfl; cases h)

/-- The mnemonics that take a number alone, with their instructions. -/
def numberForms : List (String × (Nibble → Instr)) :=
  [("out", .outImm), ("jc", .jc), ("jmp", .jmp)]

/-- The mnemonics and registers that take a number, with their instructions. -/
def registerForms : List (String × String × (Nibble → Instr)) :=
  [("add", "a", .addA), ("add", "b", .addB), ("mov", "a", .movAImm), ("mov", "b", .movBImm)]

section Forms

variable {tool : AsmTool} {raw digits : List Char} {n : Nat}

theorem asmFields_of_numberForm {form : String × (Nibble → Instr)} (hform : form ∈ numberForms)
    (hdigits : digits.all Char.isDigit = true) (hn : decimalValue digits = some n) :
    IsField form.1.toList ∧
      asmFields tool raw [form.1.toList, digits] = .emit (form.2 (BitVec.ofNat 4 n)) := by
  obtain ⟨ha, hb⟩ := digits_ne_register hdigits
  fin_cases hform <;> refine ⟨⟨by decide, by decide⟩, ?_⟩ <;>
    simp [asmFields, mnemonicOf, asmOperands, ha, hb, withNumber_of_decimal hn]

theorem asmFields_of_registerForm {form : String × String × (Nibble → Instr)}
    (hform : form ∈ registerForms)
    (hdigits : digits.all Char.isDigit = true) (hn : decimalValue digits = some n) :
    IsField form.1.toList ∧ IsField form.2.1.toList ∧
      asmFields tool raw [form.1.toList, form.2.1.toList, digits] =
        .emit (form.2.2 (BitVec.ofNat 4 n)) := by
  obtain ⟨ha, hb⟩ := digits_ne_register hdigits
  fin_cases hform <;> refine ⟨⟨by decide, by decide⟩, ⟨by decide, by decide⟩, ?_⟩ <;>
    simp [asmFields, mnemonicOf, asmOperands, ha, hb, withNumber_of_decimal hn]

end Forms

/-! ### The canonical line of an instruction -/

theorem asmLine_sourceLine {i : Instr} (h : i.assemblable = true) : asmLine (sourceLine i) = .emit i := by
  cases i with
  | addA n | movAImm n | movBImm n | addB n | outImm n | jc n | jmp n => clear h; revert n; decide
  | movAB n | inA n | movBA n | inB n | outB n =>
    obtain rfl : n = 0 := by simpa [Instr.assemblable] using h
    decide
  | nop8 n | nopB n | nopC n | nopD n => cases h

theorem newline_not_mem_sourceLine (i : Instr) : '\n' ∉ sourceLine i := by
  cases i with
  | addA n | movAImm n | movBImm n | addB n | outImm n | jc n | jmp n => revert n; decide
  | movAB n | inA n | movBA n | inB n | outB n | nop8 n | nopB n | nopC n | nopD n => decide +revert

theorem sourceLines_sourceText (p : List Instr) : sourceLines (sourceText p) = p.map sourceLine ++ [[]] := by
  induction p with
  | nil => rfl
  | cons i p ih =>
    rw [List.map_cons, List.cons_append, ← ih, ← sourceLines_append_newline (newline_not_mem_sourceLine i)]
    simp [sourceText]

/-- The canonical lines of a program that has mnemonics read, and emit the program. -/
theorem sourceLines_read {p : List Instr} (h : p.all Instr.assemblable = true) :
    (∀ line ∈ p.map sourceLine, LineReads line) ∧ emittedBy (p.map sourceLine) = p := by
  induction p with
  | nil => exact ⟨by simp, rfl⟩
  | cons i p ih =>
    rw [List.all_cons, Bool.and_eq_true] at h
    have hi := asmLine_sourceLine h.1
    obtain ⟨hreads, hemitted⟩ := ih h.2
    rw [List.map_cons, emittedBy_cons_of_emit hi, hemitted]
    exact ⟨List.forall_mem_cons.mpr ⟨.inr ⟨i, hi⟩, hreads⟩, rfl⟩

/-- The canonical text of a program that has mnemonics emits the program. -/
theorem emittedBy_sourceText {p : List Instr} (h : p.all Instr.assemblable = true) :
    emittedBy (sourceLines (sourceText p)) = p := by
  rw [sourceLines_sourceText, emittedBy_append, (sourceLines_read h).2, emittedBy_cons_of_skip rfl,
    emittedBy_nil, List.append_nil]

theorem assemble_sourceText {p : List Instr} (h : p.all Instr.assemblable = true) (hfit : p.length ≤ 16) :
    assemble (sourceText p) = .assembled { State.reset with rom := romFrom 0 (p.map encode) } := by
  have hemitted := emittedBy_sourceText h
  refine asmFrom_assembled_iff.mpr ⟨?_, by rwa [hemitted], by rw [hemitted]⟩
  have hend : LineReads [] := .inl rfl
  rw [sourceLines_sourceText]
  exact List.forall_mem_append.mpr ⟨(sourceLines_read h).1, by simpa using hend⟩

/-- The instruction after the first 16 finds no slot left (R86). -/
theorem assemble_sourceText_full {first rest : List Instr} {i : Instr} (hlen : first.length = 16)
    (hfirst : first.all Instr.assemblable = true) (hi : i.assemblable = true) :
    assemble (sourceText (first ++ i :: rest)) = .failed (.capacityError 17) := by
  obtain ⟨hreads, hemitted⟩ := sourceLines_read hfirst
  have hfit : ([] : List Byte).length + (emittedBy (first.map sourceLine)).length ≤ 16 := by
    simp [hemitted, hlen]
  calc assemble (sourceText (first ++ i :: rest))
      = asmFrom 1 [] (first.map sourceLine ++ sourceLine i :: (rest.map sourceLine ++ [[]])) := by
        rw [assemble, assembleWith, sourceLines_sourceText, List.map_append, List.append_assoc]
        rfl
    _ = asmFrom 17 (first.map encode) (sourceLine i :: (rest.map sourceLine ++ [[]])) := by
        rw [asmFrom_append hreads hfit, hemitted, List.length_map, hlen]
        rfl
    _ = .failed (.capacityError 17) :=
        asmFromWith_of_emit_full (asmLine_sourceLine hi) (by rw [List.length_map, hlen])

end Sys2Proof.Machine
end

section
/-! The statements on source lines with numbers and on canonical source texts (30_encoding.md R72, R76 to
R81, R84 to R86, R89). -/

open Sys2Proof Sys2Proof.Machine

/-- Settles O44: the line is cut into its mnemonic, its register and its number, whatever stands between
them, and the number is a string of digits that is no register name. -/
theorem numbersAreMaskedToFourBits : Obligations.NumbersAreMaskedToFourBits := by
  intro lead gap gap' digits trail n hlead htrail hgap hgap' h0 hdigits hfold hlimit
  have hn := decimalValue_of_digits h0 hdigits hfold hlimit
  have hlast := HasFields.last (isField_of_digits h0 hdigits) htrail
  have hmask : BitVec.ofNat 4 (n % 16) = BitVec.ofNat 4 n := BitVec.eq_of_toNat_eq (by simp)
  rw [hmask]
  refine ⟨fun form hform hlen => ?_, fun form hform hlen => ?_⟩
  · obtain ⟨hm, hemit⟩ := asmFields_of_numberForm hform hdigits hn
    have hline := (hlast.cons hm hgap).blank_append hlead
    simp only [← List.append_assoc] at hline
    exact (hline.asmLine_eq hlen).trans hemit
  · obtain ⟨hm, hr, hemit⟩ := asmFields_of_registerForm hform hdigits hn
    have hline := ((hlast.cons hr hgap').cons hm hgap).blank_append hlead
    simp only [← List.append_assoc] at hline
    exact (hline.asmLine_eq hlen).trans hemit

/-- Settles O43: the first 16 canonical lines fill the ROM, and a 17th finds no slot left. -/
theorem everyShortProgramAssembles : Obligations.EveryShortProgramAssembles := by
  intro p hp
  refine ⟨fun hfit => ⟨_, assemble_sourceText hp hfit, emittedBy_sourceText hp, rfl⟩, fun hlong => ?_⟩
  obtain ⟨first, i, rest, rfl, hlen⟩ : ∃ first i rest, p = first ++ i :: rest ∧ first.length = 16 :=
    ⟨p.take 16, p[16], p.drop 17, by simp, by simp; omega⟩
  rw [List.all_append, List.all_cons, Bool.and_eq_true, Bool.and_eq_true] at hp
  obtain ⟨hfirst, hi, -⟩ := hp
  exact assemble_sourceText_full hlen hfirst hi

end

section
/-! SUPPORT. How a step ends: what each abort point leaves, what is written to the trace, and the step with
neither stream attached (spec 40_execution_cycle.md R103, R107, R109, R110, R113). -/

namespace Sys2Proof.Machine

variable {i : Instr} {s s2 t : State}

/-! ### The end of a step, from how phase 2 ends -/

theorem exec_of_aborted {r : AbortReason} (h : s.status = .aborted r) (i : Instr) :
    exec i s = .refused (.stepAfterAbort r) := by
  rw [exec_eq_runStep, runStep_of_aborted h]

theorem running_of_exec_next (h : exec i s = .next t) : s.status = .running :=
  (runStep_next_iff.mp (exec_eq_runStep i s ▸ h)).1

theorem eq_of_exec_of_inputStop (h : exec i s = .next t) (hin : inputOf i s = .stop s2) : t = s2 := by
  rw [exec_of_inputStop (running_of_exec_next h) hin] at h
  cases h
  rfl

theorem keepsRomAndConfig_of_exec (h : exec i s = .next t) : KeepsRomAndConfig s t := by
  obtain ⟨u, hu, hrom, hconfig⟩ := exec_keeps_romAndConfig i (running_of_exec_next h)
  rw [h] at hu
  cases hu
  exact ⟨fun addr => by rw [hrom], hconfig⟩

theorem traceAttached_of_inputOf_goOn (hin : inputOf i s = .goOn s2) :
    s2.traceAttached = s.traceAttached := by
  obtain ⟨-, -, htrace⟩ := inputOf_keeps_romAndConfig i s
  rwa [hin] at htrace

/-! ### An exhausted read -/

/-- An exhausted read stops the step with nothing but the run status changed, prompt or no prompt (R109). -/
theorem inputOf_stop_of_exhausted (hi : i.isIn = true) (ha : s.inputAttached = true)
    (hok : s.traceAttached = true → s.traceAnswerAt 0 = .ok) (hv : s.inAnswerAt 0 = .exhausted) :
    ∃ t, inputOf i s = .stop t ∧ t.view = { s.view with status := .aborted .inputExhausted } := by
  cases ht : s.traceAttached with
  | false => exact ⟨_, inputOf_of_exhausted hi ha ht hv, rfl⟩
  | true => exact ⟨_, inputOf_of_prompt_exhausted hi ha ht (hok ht) hv, rfl⟩

/-! ### A step beside the same step with no trace attached -/

/-- The state with the trace taken off. -/
def State.untraced (s : State) : State := { s with traceAttached := false }

/-- Where phase 2 goes on it does so without the trace too, and leaves the same registers, latches and flag. -/
theorem inputOf_untraced_of_goOn (hin : inputOf i s = .goOn s2) :
    ∃ u2, inputOf i s.untraced = .goOn u2 ∧ u2.traceAttached = false ∧ u2.view = s2.view := by
  rcases inputOf_cases i s with
    ⟨hno, e⟩ | ⟨hi, ha, v, hv, ⟨-, e⟩ | ⟨-, -, e⟩⟩ | ⟨-, -, -, ⟨-, e⟩ | ⟨-, -, e⟩⟩ | ⟨-, -, -, -, e⟩ <;>
    rw [e] at hin <;> cases hin
  · exact ⟨_, inputOf_of_noRead hno, rfl, rfl⟩
  all_goals exact ⟨_, inputOf_of_value (s := s.untraced) hi ha rfl hv, rfl, rfl⟩

/-- Phase 3 neither reads nor writes what a state holds beside its view. -/
theorem effectOf_view_congr (i : Instr) {s u : State} (h : s.view = u.view) :
    (effectOf i s).view = (effectOf i u).view := by
  simp only [State.view, View.mk.injEq] at h
  obtain ⟨ha, hb, hl, ho, hc, hpc, hst⟩ := h
  cases i <;>
    simp [effectOf, addTo, move, nothing, Dest.load, Source.value, State.view, ha, hb, hl, ho, hc, hpc, hst]

/-- A refused trace line undoes nothing: the step leaves what the same step leaves without a trace, but for
`pc` and the run status (R109). -/
theorem exec_lineFail_beside_untraced (hr : s.status = .running) (hin : inputOf i s = .goOn s2)
    (ht : s.traceAttached = true) (h0 : s2.traceAnswerAt 0 = .fail) :
    ∃ t u, exec i s = .next t ∧ exec i s.untraced = .next u ∧ KeepsRomAndConfig s t ∧ AsksNoInput s2 t ∧
      u.status = .running ∧ t.inLatch = s2.inLatch ∧
      t.view = { u.view with pc := s.pc, status := .aborted .outputFailure } := by
  obtain ⟨u2, hu, hut, hview⟩ := inputOf_untraced_of_goOn hin
  have hex := exec_of_lineFail hr hin ((traceAttached_of_inputOf_goOn hin).trans ht) h0
  obtain ⟨hl, hpc, -, -, -, -, hans, hreads, -⟩ := effectOf_keeps i s2
  obtain ⟨-, hpc2, -⟩ := inputOf_goOn_keeps hin
  obtain ⟨-, -, -, hust, -⟩ := effectOf_keeps i u2
  obtain ⟨hust2, -⟩ := inputOf_goOn_keeps hu
  refine ⟨_, _, hex, exec_of_untraced hr hu hut, keepsRomAndConfig_of_exec hex, ⟨hans, hreads⟩,
    hust.trans (hust2.trans hr), hl, ?_⟩
  have hpcs : (effectOf i s2).pc = s.pc := hpc.trans hpc2
  rw [State.view_abort, State.view_recordTrace, State.view_setPc, effectOf_view_congr i hview, ← hpcs]
  rfl

/-! ### What a step writes to the trace -/

theorem inputOf_trace_of_untraced (i : Instr) (ht : s.traceAttached = false) :
    (inputOf i s).state.traceLog = s.traceLog ∧ (inputOf i s).state.traceAnswers = s.traceAnswers := by
  rcases inputOf_cases i s with
    ⟨-, e⟩ | ⟨-, -, v, -, ⟨-, e⟩ | ⟨ht', -⟩⟩ | ⟨-, -, -, ⟨-, e⟩ | ⟨ht', -⟩⟩ | ⟨-, -, ht', -⟩
  case inr.inl.inr | inr.inr.inl.inr | inr.inr.inr =>
    exact absurd (ht.symm.trans ht') (by decide)
  all_goals rw [e]; exact ⟨rfl, rfl⟩

/-- Without a trace nothing is written, whether the step completes or not. -/
theorem exec_trace_of_untraced (h : exec i s = .next t) (ht : s.traceAttached = false) :
    t.traceLog = s.traceLog ∧ t.traceAnswers = s.traceAnswers := by
  have hinput := inputOf_trace_of_untraced i ht
  cases hin : inputOf i s with
  | stop s2 =>
    rw [hin] at hinput
    rwa [eq_of_exec_of_inputStop h hin]
  | goOn s2 =>
    rw [hin] at hinput
    rw [exec_of_untraced (running_of_exec_next h) hin ((traceAttached_of_inputOf_goOn hin).trans ht)] at h
    cases h
    obtain ⟨-, -, -, -, -, -, -, -, hanswers, hlog⟩ := effectOf_keeps i s2
    exact ⟨hlog.trans hinput.1, hanswers.trans hinput.2⟩

/-- After a phase 2 that goes on, a traced step writes its one line, whether or not the host accepts it: the
`pc` of the fetch, and the registers as the step leaves them (R107). -/
theorem exec_trace_of_traced (h : exec i s = .next t) (hin : inputOf i s = .goOn s2)
    (ht : s.traceAttached = true) :
    t.traceLog = s2.traceLog ++ [⟨.line (traceLineOf i (t.setPc s.pc)), s2.traceAnswerAt 0⟩] ∧
      t.traceAnswers = s2.traceAnswers.tail := by
  have hr := running_of_exec_next h
  have ht2 := (traceAttached_of_inputOf_goOn hin).trans ht
  obtain ⟨-, hpc, -, -, -, -, -, -, hanswers, hlog⟩ := effectOf_keeps i s2
  obtain ⟨-, hpc2, -⟩ := inputOf_goOn_keeps hin
  have hpcs : (effectOf i s2).pc = s.pc := hpc.trans hpc2
  cases h0 : s2.traceAnswerAt 0 with
  | ok =>
    rw [exec_of_lineOk hr hin ht2 h0] at h
    cases h
    simp [traceLineOf, hpcs, hanswers, hlog, effectOf_traceAnswerAt, h0]
  | fail =>
    rw [exec_of_lineFail hr hin ht2 h0] at h
    cases h
    simp [traceLineOf, hpcs, hanswers, hlog, effectOf_traceAnswerAt, h0]

end Sys2Proof.Machine
end

section
/-! The statements on how a step and a run end (40_execution_cycle.md R101 to R113). -/

open Sys2Proof Sys2Proof.Machine

/-- Settles O22: an abort in phase 2 leaves the state phase 2 left, and an abort at the line the state that
the untraced step leaves before it commits. -/
theorem abortLeavesExactState : Obligations.AbortLeavesExactState := by
  intro i s hr
  refine ⟨fun hi ha ht h0 => ?_, fun hi ha hok hv => ?_, fun hno ht h0 => ?_, fun v hi ha hv ht h0 h1 => ?_⟩
  · have hex := exec_of_inputStop hr (inputOf_of_promptFail hi ha ht h0)
    exact ⟨_, hex, keepsRomAndConfig_of_exec hex, ⟨rfl, rfl⟩, rfl⟩
  · obtain ⟨t, hin, hview⟩ := inputOf_stop_of_exhausted hi ha hok hv
    have hex := exec_of_inputStop hr hin
    exact ⟨t, hex, keepsRomAndConfig_of_exec hex, hview⟩
  · obtain ⟨t, u, hex, hu, hkeeps, hasks, hust, -, hview⟩ :=
      exec_lineFail_beside_untraced hr (inputOf_of_noRead hno) ht h0
    exact ⟨t, u, hex, hu, hkeeps, hasks, hust, hview⟩
  · exact exec_lineFail_beside_untraced hr (inputOf_of_prompt_value hi ha ht h0 hv) ht (by simpa using h1)

/-- Settles O30: the prompt is what phase 2 writes, and the line follows wherever phase 2 goes on. -/
theorem traceWritesOfAStep : Obligations.TraceWritesOfAStep := by
  intro i s hr
  obtain ⟨t, hex, -⟩ := exec_pc i hr
  refine ⟨t, hex, exec_trace_of_untraced hex,
    fun ht hno => exec_trace_of_traced hex (inputOf_of_noRead hno) ht,
    fun ht hi ha => ⟨fun h0 => ?_, fun h0 hv => ?_, fun v h0 hv => ?_⟩⟩
  · rw [eq_of_exec_of_inputStop hex (inputOf_of_promptFail hi ha ht h0)]
    simp [h0]
  · rw [eq_of_exec_of_inputStop hex (inputOf_of_prompt_exhausted hi ha ht h0 hv)]
    simp [h0]
  · obtain ⟨hlog, hanswers⟩ := exec_trace_of_traced hex (inputOf_of_prompt_value hi ha ht h0 hv) ht
    exact ⟨by simp [hlog, h0, traceLineOf], by simp [hanswers]⟩

/-- Settles O49: with nothing attached, phases 2 and 5 do nothing, and phase 3 writes registers only. -/
theorem detachedStepStaysRunningAndDetached : Obligations.DetachedStepStaysRunningAndDetached := by
  intro s hr ha ht
  have hex := exec_of_untraced hr (inputOf_of_noRead (i := decode (fetch s)) (.inr ha)) ht
  obtain ⟨hl, -, hrom, hst, hin, htr, hans, hreads, htans, hlog⟩ := effectOf_keeps (decode (fetch s)) s
  exact ⟨_, hex, hst.trans hr, hin.trans ha, htr.trans ht, nextOf_eq_committedPc _ s, hrom, hl,
    ⟨hans, hreads⟩, hlog, htans⟩

/-- Settles O35, by induction on the number of steps: a detached step ends where the next one can start. -/
theorem detachedRunNeverStops : Obligations.DetachedRunNeverStops := by
  intro n
  induction n with
  | zero => exact fun s hr ha ht => ⟨s, core_run_zero s, hr, ha, ht, rfl, rfl, rfl, rfl⟩
  | succ n ih =>
    intro s hr ha ht
    obtain ⟨m, hstep, hmr, hma, hmt, -, hrom, hl, ⟨-, hreads⟩, hlog, -⟩ :=
      detachedStepStaysRunningAndDetached s hr ha ht
    obtain ⟨t, hrun, htr, hta, htt, hrom', hreads', hlog', hl'⟩ := ih m hmr hma hmt
    exact ⟨t, (core_run_succ n hstep).trans hrun, htr, hta, htt, hrom'.trans hrom,
      hreads'.trans hreads, hlog'.trans hlog, hl'.trans hl⟩

/-- Settles O20: fetching is reading the ROM at `pc`. -/
theorem stepRunsTheDecodedInstruction : Obligations.StepRunsTheDecodedInstruction := by
  rintro i s rfl
  rfl

/-- Settles O21: every meaning is refused alike, the one that the byte at `pc` decodes to among them. -/
theorem noStepAfterAbortUntilReset : Obligations.NoStepAfterAbortUntilReset :=
  fun s _ h => ⟨exec_of_aborted h (decode (fetch s)), exec_of_aborted h, s.applyReset_status⟩

end

section
/-! SUPPORT. The step of an instruction that does not read input, from its phase 3 alone (spec
40_execution_cycle.md R103 to R109), and the byte that encodes an instruction, read by mask (30_encoding.md
R60). -/

namespace Sys2Proof.Machine

/-! ### The encoding by mask -/

/-- The byte with this opcode in bits 7:4 and zeros below. -/
def opcodeByte (op : Nibble) : Byte := BitVec.ofNat 8 (16 * op.toNat)

theorem masked_eq_opcodeByte (b : Byte) : b &&& 0xF0#8 = opcodeByte (opField b) := by
  revert b
  decide

theorem opcodeByte_inj {x y : Nibble} : opcodeByte x = opcodeByte y ↔ x = y := by
  revert x y
  decide

/-- A byte decodes to an instruction exactly where its high nibble is the opcode and its low nibble the
operand. -/
theorem decode_eq_iff_masked (i : Instr) (b : Byte) :
    decode b = i ↔ b &&& 0xF0#8 = opcodeByte i.opcode ∧ b.extractLsb' 0 4 = i.lowNibble := by
  rw [masked_eq_opcodeByte, opcodeByte_inj]
  constructor
  · rintro rfl
    exact ⟨(decode_opcode b).symm, (decode_lowNibble b).symm⟩
  · rintro ⟨hop, himm⟩
    rw [← encode_eq_iff, encode, ← hop, ← himm]
    exact opField_append_immField b

/-! ### A step that reads no input, from what phase 3 leaves -/

section NoRead

variable {i : Instr} {s : State} {v : View}

theorem asksNoInput_effectOf (i : Instr) (s : State) : AsksNoInput s (effectOf i s) := by
  obtain ⟨-, -, -, -, -, -, hans, hreads, -⟩ := effectOf_keeps i s
  exact ⟨hans, hreads⟩

/-- With no trace or an accepted line, the step commits the next pc on what phase 3 left. -/
theorem exec_of_lineAccepted (hi : i.isIn = false) (hr : s.status = .running)
    (hok : s.traceAttached = true → s.traceAnswerAt 0 = .ok) (hv : (effectOf i s).view = v) :
    ∃ t, exec i s = .next t ∧ KeepsRomAndConfig s t ∧ AsksNoInput s t ∧
      t.view = { v with pc := committedPc i s } := by
  subst hv
  rw [← nextOf_eq_committedPc]
  have hin : inputOf i s = .goOn s := inputOf_of_noRead (.inl hi)
  cases ht : s.traceAttached with
  | false =>
    have hex := exec_of_untraced hr hin ht
    exact ⟨_, hex, keepsRomAndConfig_of_exec hex, asksNoInput_effectOf i s, rfl⟩
  | true =>
    have hex := exec_of_lineOk hr hin ht (hok ht)
    exact ⟨_, hex, keepsRomAndConfig_of_exec hex, asksNoInput_effectOf i s, rfl⟩

/-- With a refused line, the step aborts on what phase 3 left, and `pc` is not committed (R109). -/
theorem exec_of_lineRefused (hi : i.isIn = false) (hr : s.status = .running)
    (ht : s.traceAttached = true) (h0 : s.traceAnswerAt 0 = .fail) (hv : (effectOf i s).view = v) :
    ∃ t, exec i s = .next t ∧ KeepsRomAndConfig s t ∧ AsksNoInput s t ∧
      t.view = { v with status := .aborted .outputFailure } := by
  subst hv
  have hex := exec_of_lineFail hr (inputOf_of_noRead (.inl hi)) ht h0
  exact ⟨_, hex, keepsRomAndConfig_of_exec hex, asksNoInput_effectOf i s, rfl⟩

end NoRead

/-! ### What phase 3 of the two `ADD` leaves -/

/-- The adder's result, as the exact sum modulo 16 (41_alu.md R122). -/
theorem aluResult_eq (x y : Nibble) : aluResult x y = BitVec.ofNat 4 ((x.toNat + y.toNat) % 16) :=
  BitVec.eq_of_toNat_eq (by simp [aluResult_toNat])

theorem effectOf_addA_view (imm : Nibble) (s : State) :
    (effectOf (.addA imm) s).view = { s.view with
      a := BitVec.ofNat 4 ((s.a.toNat + imm.toNat) % 16)
      carry := decide (15 < s.a.toNat + imm.toNat) } := by
  rw [← aluResult_eq, ← aluCarry_eq]
  rfl

theorem effectOf_addB_view (imm : Nibble) (s : State) :
    (effectOf (.addB imm) s).view = { s.view with
      b := BitVec.ofNat 4 ((s.b.toNat + imm.toNat) % 16)
      carry := decide (15 < s.b.toNat + imm.toNat) } := by
  rw [← aluResult_eq, ← aluCarry_eq]
  rfl

/-- A completed `ADD A, imm` leaves the exact sum modulo 16 in `a` and its overflow in the carry flag. -/
theorem exec_addA_sum (imm : Nibble) {s : State} (hr : s.status = .running)
    (hok : s.traceAttached = true → s.traceAnswerAt 0 = .ok) :
    ∃ t, exec (.addA imm) s = .next t ∧ t.status = .running ∧
      t.a.toNat = (s.a.toNat + imm.toNat) % 16 ∧ t.carry = decide (15 < s.a.toNat + imm.toNat) := by
  obtain ⟨t, hex, -, -, hview⟩ := exec_of_lineAccepted rfl hr hok (effectOf_addA_view imm s)
  have ha : t.a = BitVec.ofNat 4 ((s.a.toNat + imm.toNat) % 16) := congrArg View.a hview
  exact ⟨t, hex, (congrArg View.status hview).trans hr, by simp [ha], congrArg View.carry hview⟩

end Sys2Proof.Machine
end

section
/-! The statements on the arithmetic instructions (41_alu.md R120, R121, R123). -/

open Sys2Proof Sys2Proof.Machine

/-- Settles O4: phase 3 leaves the adder's result and carry out, and the trace line decides whether `pc` is
committed. -/
theorem addAImmAddsAndSetsCarry : Obligations.AddAImmAddsAndSetsCarry :=
  fun imm s hr =>
    ⟨decode_eq_iff_masked (.addA imm),
      fun hok => exec_of_lineAccepted rfl hr hok (effectOf_addA_view imm s),
      fun ht h0 => exec_of_lineRefused rfl hr ht h0 (effectOf_addA_view imm s)⟩

/-- Settles O9: as for `ADD A, imm`, with the adder on `b`. -/
theorem addBImmAddsAndSetsCarry : Obligations.AddBImmAddsAndSetsCarry :=
  fun imm s hr =>
    ⟨decode_eq_iff_masked (.addB imm),
      fun hok => exec_of_lineAccepted rfl hr hok (effectOf_addB_view imm s),
      fun ht h0 => exec_of_lineRefused rfl hr ht h0 (effectOf_addB_view imm s)⟩

/-- Settles O32: the exact sum `a + (16 - k)` exceeds 15 exactly where `a - k` needs no borrow. -/
theorem addOfComplementSubtracts : Obligations.AddOfComplementSubtracts := by
  intro s hr hok
  constructor
  · intro k h1 h15
    have himm : (BitVec.ofNat 4 (16 - k)).toNat = 16 - k := Nat.mod_eq_of_lt (by omega)
    obtain ⟨t, hex, hst, ha, hc⟩ := exec_addA_sum (BitVec.ofNat 4 (16 - k)) hr hok
    rw [himm] at ha hc
    refine ⟨t, hex, hst, by omega, ?_⟩
    rw [hc, decide_eq_true_iff]
    omega
  · obtain ⟨t, hex, hst, ha, hc⟩ := exec_addA_sum 0 hr hok
    have hlt : s.a.toNat < 16 := s.a.isLt
    exact ⟨t, hex, hst, BitVec.eq_of_toNat_eq (by simpa [Nat.mod_eq_of_lt hlt] using ha),
      hc.trans (decide_eq_false (Nat.not_lt.mpr (Nat.le_of_lt_succ hlt)))⟩

end

section
/-! SUPPORT. What phase 3 of the four register moves leaves, and the trace channel as a step that reads no
input hands it to the next step (spec 42_move.md R130 to R134; 40_execution_cycle.md R104, R107). -/

namespace Sys2Proof.Machine

/-! ### What phase 3 of the four `MOV` leaves -/

theorem effectOf_movAB_view (ign : Nibble) (s : State) :
    (effectOf (.movAB ign) s).view = { s.view with a := s.b } := rfl

theorem effectOf_movAImm_view (imm : Nibble) (s : State) :
    (effectOf (.movAImm imm) s).view = { s.view with a := imm } := rfl

theorem effectOf_movBA_view (ign : Nibble) (s : State) :
    (effectOf (.movBA ign) s).view = { s.view with b := s.a } := rfl

theorem effectOf_movBImm_view (imm : Nibble) (s : State) :
    (effectOf (.movBImm imm) s).view = { s.view with b := imm } := rfl

/-- `MOV B, A` writes nothing new where the two registers are equal already (R134). -/
theorem effectOf_movBA_view_of_eq (ign : Nibble) {s : State} (h : s.a = s.b) :
    (effectOf (.movBA ign) s).view = s.view := by
  rw [effectOf_movBA_view, h]
  rfl

/-! ### The trace channel from one step to the next -/

section NextStep

variable {i : Instr} {s t : State}

/-- A traced step that reads no input uses up one answer, so the next step gets the one after it. -/
theorem traceAnswerAt_of_exec (hi : i.isIn = false) (h : exec i s = .next t)
    (ht : s.traceAttached = true) (k : Nat) : t.traceAnswerAt k = s.traceAnswerAt (k + 1) := by
  obtain ⟨hlog, hanswers⟩ := exec_trace_of_traced h (inputOf_of_noRead (.inl hi)) ht
  simp [State.traceAnswerAt, hlog, hanswers, Nat.add_right_comm, Nat.add_assoc]

/-- Where the host accepts the write after the line of a step, it accepts the next step's line. -/
theorem lineAccepted_after_exec (hi : i.isIn = false) (h : exec i s = .next t)
    (hok : s.traceAttached = true → s.traceAnswerAt 1 = .ok) :
    t.traceAttached = true → t.traceAnswerAt 0 = .ok := by
  obtain ⟨-, -, htrace⟩ := keepsRomAndConfig_of_exec h
  intro ht
  have hs : s.traceAttached = true := htrace ▸ ht
  exact (traceAnswerAt_of_exec hi h hs 0).trans (hok hs)

end NextStep

end Sys2Proof.Machine
end

section
/-! The statements on the register moves (42_move.md R130 to R134). -/

open Sys2Proof Sys2Proof.Machine

/-- Settles O5: phase 3 loads `b` into `a`, and the trace line decides whether `pc` is committed. The
canonical line of `MOV A, B` assembles to it. -/
theorem movABCopiesB : Obligations.MovABCopiesB :=
  fun ign s hr =>
    ⟨decode_eq_iff_masked (.movAB ign),
      ⟨asmLine_sourceLine (i := .movAB 0) rfl, rfl⟩,
      fun hok => exec_of_lineAccepted rfl hr hok (effectOf_movAB_view ign s),
      fun ht h0 => exec_of_lineRefused rfl hr ht h0 (effectOf_movAB_view ign s)⟩

/-- Settles O6: as for `MOV A, B`, with the immediate loaded into `a`. -/
theorem movAImmLoadsA : Obligations.MovAImmLoadsA :=
  fun imm s hr =>
    ⟨decode_eq_iff_masked (.movAImm imm),
      fun hok => exec_of_lineAccepted rfl hr hok (effectOf_movAImm_view imm s),
      fun ht h0 => exec_of_lineRefused rfl hr ht h0 (effectOf_movAImm_view imm s)⟩

/-- Settles O7: as for `MOV A, B`, with `a` loaded into `b`. -/
theorem movBACopiesA : Obligations.MovBACopiesA :=
  fun ign s hr =>
    ⟨decode_eq_iff_masked (.movBA ign),
      ⟨asmLine_sourceLine (i := .movBA 0) rfl, rfl⟩,
      fun hok => exec_of_lineAccepted rfl hr hok (effectOf_movBA_view ign s),
      fun ht h0 => exec_of_lineRefused rfl hr ht h0 (effectOf_movBA_view ign s)⟩

/-- Settles O8: as for `MOV A, B`, with the immediate loaded into `b`. -/
theorem movBImmLoadsB : Obligations.MovBImmLoadsB :=
  fun imm s hr =>
    ⟨decode_eq_iff_masked (.movBImm imm),
      fun hok => exec_of_lineAccepted rfl hr hok (effectOf_movBImm_view imm s),
      fun ht h0 => exec_of_lineRefused rfl hr ht h0 (effectOf_movBImm_view imm s)⟩

/-- Settles O31: the first step leaves `b` in both registers, so phase 3 of the second changes nothing. -/
theorem movPairLeavesBothAsB : Obligations.MovPairLeavesBothAsB := by
  intro m n s hr hok
  obtain ⟨t, hex, -, -, hview⟩ :=
    exec_of_lineAccepted rfl hr (fun ht => (hok ht).1) (effectOf_movAB_view m s)
  have ht : t.status = .running := (congrArg View.status hview).trans hr
  have hta : t.a = s.b := congrArg View.a hview
  have htb : t.b = s.b := congrArg View.b hview
  have hok' := lineAccepted_after_exec rfl hex (fun h => (hok h).2)
  obtain ⟨u, hex', -, -, hview'⟩ :=
    exec_of_lineAccepted rfl ht hok' (effectOf_movBA_view_of_eq n (hta.trans htb.symm))
  have hua : u.a = s.b := (congrArg View.a hview').trans hta
  have hub : u.b = s.b := (congrArg View.b hview').trans htb
  refine ⟨t, u, hex, hex', ht, (congrArg View.status hview').trans ht, hua, hub, hview', ?_⟩
  rw [hua, hub, and_iff_left rfl, eq_comm]

end

section
/-! SUPPORT. What phase 3 of the four input and output instructions leaves, and the step of an instruction
whose phase 2 reads a value (spec 43_io.md R140 to R143; 40_execution_cycle.md R103, R109). -/

namespace Sys2Proof.Machine

/-! ### What phase 3 of `OUT` and `IN` leaves -/

theorem effectOf_outB_view (ign : Nibble) (s : State) :
    (effectOf (.outB ign) s).view = { s.view with out := s.b } := rfl

theorem effectOf_outImm_view (imm : Nibble) (s : State) :
    (effectOf (.outImm imm) s).view = { s.view with out := imm } := rfl

theorem effectOf_inA_view (ign : Nibble) (s : State) :
    (effectOf (.inA ign) s).view = { s.view with a := s.inLatch } := rfl

theorem effectOf_inB_view (ign : Nibble) (s : State) :
    (effectOf (.inB ign) s).view = { s.view with b := s.inLatch } := rfl

/-! ### A step whose phase 2 goes on, from what phase 3 leaves -/

variable {i : Instr} {s s2 t : State} {v : Nibble} {w : View}

/-- With no trace or an accepted line, the step commits the next pc on what phase 3 left, and asks for no input
after phase 2. -/
theorem exec_of_goOn_of_lineAccepted (hr : s.status = .running) (hin : inputOf i s = .goOn s2)
    (hok : s.traceAttached = true → s2.traceAnswerAt 0 = .ok) (hw : (effectOf i s2).view = w) :
    ∃ t, exec i s = .next t ∧ KeepsRomAndConfig s t ∧ AsksNoInput s2 t ∧
      t.view = { w with pc := committedPc i s } := by
  subst hw
  rw [← nextOf_of_inputOf_goOn hin]
  have ht2 := traceAttached_of_inputOf_goOn hin
  cases ht : s.traceAttached with
  | false =>
    have hex := exec_of_untraced hr hin (ht2.trans ht)
    exact ⟨_, hex, keepsRomAndConfig_of_exec hex, asksNoInput_effectOf i s2, rfl⟩
  | true =>
    have hex := exec_of_lineOk hr hin (ht2.trans ht) (hok ht)
    exact ⟨_, hex, keepsRomAndConfig_of_exec hex, asksNoInput_effectOf i s2, rfl⟩

/-- With a refused line, the step aborts on what phase 3 left, the latch that phase 2 wrote among it, and `pc`
is not committed (R109). -/
theorem exec_of_goOn_of_lineRefused (hr : s.status = .running) (hin : inputOf i s = .goOn s2)
    (ht : s.traceAttached = true) (h0 : s2.traceAnswerAt 0 = .fail) (hw : (effectOf i s2).view = w) :
    ∃ t, exec i s = .next t ∧ KeepsRomAndConfig s t ∧ AsksNoInput s2 t ∧
      t.view = { w with status := .aborted .outputFailure } := by
  subst hw
  have hex := exec_of_lineFail hr hin ((traceAttached_of_inputOf_goOn hin).trans ht) h0
  exact ⟨_, hex, keepsRomAndConfig_of_exec hex, asksNoInput_effectOf i s2, rfl⟩

/-! ### The input channel over one read -/

theorem AsksOneInput.trans_asksNoInput (h : AsksOneInput s s2) (h2 : AsksNoInput s2 t) :
    AsksOneInput s t :=
  ⟨h2.1.trans h.1, h2.2.trans h.2⟩

/-- A read that uses up its answer moves every later answer one place nearer (20_memory.md R47). -/
theorem AsksOneInput.inAnswerAt (h : AsksOneInput s t) (k : Nat) :
    t.inAnswerAt k = s.inAnswerAt (k + 1) := by
  obtain ⟨hanswers, hreads⟩ := h
  rw [← s.useInAnswer_inAnswerAt]
  simp [State.inAnswerAt, hanswers, hreads]

/-! ### `IN` with a stream that answers a value -/

section Value

variable (hi : i.isIn = true) (hr : s.status = .running) (ha : s.inputAttached = true)
  (hv : s.inAnswerAt 0 = .value v)

include hi ha hv

/-- Phase 2 latches the value, prompt or no prompt; an accepted prompt has used up one answer of the trace
channel. -/
theorem inputOf_goOn_of_value (h0 : s.traceAttached = true → s.traceAnswerAt 0 = .ok) :
    ∃ s2, inputOf i s = .goOn s2 ∧ AsksOneInput s s2 ∧ s2.view = (s.setInLatch v).view ∧
      (s.traceAttached = true → s2.traceAnswerAt 0 = s.traceAnswerAt 1) := by
  cases ht : s.traceAttached with
  | false => exact ⟨_, inputOf_of_value hi ha ht hv, ⟨rfl, rfl⟩, rfl, fun h => nomatch h⟩
  | true =>
    exact ⟨_, inputOf_of_prompt_value hi ha ht (h0 ht) hv, ⟨rfl, rfl⟩, rfl,
      fun _ => s.recordTrace_traceAnswerAt .prompt 0⟩

include hr

/-- The step completes on what phase 3 makes of the state with the value latched. -/
theorem exec_of_value_of_lineAccepted
    (hok : s.traceAttached = true → s.traceAnswerAt 0 = .ok ∧ s.traceAnswerAt 1 = .ok)
    (hw : (effectOf i (s.setInLatch v)).view = w) :
    ∃ t, exec i s = .next t ∧ KeepsRomAndConfig s t ∧ AsksOneInput s t ∧
      t.view = { w with pc := committedPc i s } := by
  obtain ⟨s2, hin, hone, hview, htrace⟩ := inputOf_goOn_of_value hi ha hv fun ht => (hok ht).1
  obtain ⟨t, hex, hkeeps, hnone, hviewt⟩ :=
    exec_of_goOn_of_lineAccepted hr hin (fun ht => (htrace ht).trans (hok ht).2)
      ((effectOf_view_congr i hview).trans hw)
  exact ⟨t, hex, hkeeps, hone.trans_asksNoInput hnone, hviewt⟩

/-- Where the prompt is accepted and the line is not, the value stays latched and copied, and the answer used
up. -/
theorem exec_of_value_of_lineRefused (ht : s.traceAttached = true) (h0 : s.traceAnswerAt 0 = .ok)
    (h1 : s.traceAnswerAt 1 = .fail) (hw : (effectOf i (s.setInLatch v)).view = w) :
    ∃ t, exec i s = .next t ∧ KeepsRomAndConfig s t ∧ AsksOneInput s t ∧
      t.view = { w with status := .aborted .outputFailure } := by
  obtain ⟨s2, hin, hone, hview, htrace⟩ := inputOf_goOn_of_value hi ha hv fun _ => h0
  obtain ⟨t, hex, hkeeps, hnone, hviewt⟩ :=
    exec_of_goOn_of_lineRefused hr hin ht ((htrace ht).trans h1) ((effectOf_view_congr i hview).trans hw)
  exact ⟨t, hex, hkeeps, hone.trans_asksNoInput hnone, hviewt⟩

end Value

end Sys2Proof.Machine
end

section
/-! The statements on the input and output instructions (43_io.md R140 to R143; 20_memory.md R47). -/

open Sys2Proof Sys2Proof.Machine

/-- Settles O10: phase 3 loads `b` into the output latch, and the trace line decides whether `pc` is committed.
The canonical line of `OUT B` assembles to it. -/
theorem outBDrivesOutput : Obligations.OutBDrivesOutput :=
  fun ign s hr =>
    ⟨decode_eq_iff_masked (.outB ign),
      ⟨asmLine_sourceLine (i := .outB 0) rfl, rfl⟩,
      fun hok => exec_of_lineAccepted rfl hr hok (effectOf_outB_view ign s),
      fun ht h0 => exec_of_lineRefused rfl hr ht h0 (effectOf_outB_view ign s)⟩

/-- Settles O11: as for `OUT B`, with the immediate loaded into the output latch. -/
theorem outImmDrivesOutput : Obligations.OutImmDrivesOutput :=
  fun imm s hr =>
    ⟨decode_eq_iff_masked (.outImm imm),
      fun hok => exec_of_lineAccepted rfl hr hok (effectOf_outImm_view imm s),
      fun ht h0 => exec_of_lineRefused rfl hr ht h0 (effectOf_outImm_view imm s)⟩

/-- Settles O18: phase 2 leaves the latch alone or latches the value read, phase 3 copies the latch into `a`,
and the trace line decides whether `pc` is committed. The two aborts inside phase 2 are those of O22. -/
theorem inAReadsLatchesAndCopies : Obligations.InAReadsLatchesAndCopies := by
  intro ign s hr
  obtain ⟨hprompt, hexhausted, -, -⟩ := abortLeavesExactState (.inA ign) s hr
  exact ⟨decode_eq_iff_masked (.inA ign),
    ⟨asmLine_sourceLine (i := .inA 0) rfl, rfl⟩,
    fun ha hok => exec_of_goOn_of_lineAccepted hr (inputOf_of_noRead (.inr ha)) hok (effectOf_inA_view ign s),
    fun ha ht h0 =>
      exec_of_goOn_of_lineRefused hr (inputOf_of_noRead (.inr ha)) ht h0 (effectOf_inA_view ign s),
    fun v ha hv hok =>
      exec_of_value_of_lineAccepted rfl hr ha hv hok (effectOf_inA_view ign (s.setInLatch v)),
    fun v ha hv ht h0 h1 =>
      exec_of_value_of_lineRefused rfl hr ha hv ht h0 h1 (effectOf_inA_view ign (s.setInLatch v)),
    fun ha hv hok => hexhausted rfl ha hok hv,
    hprompt rfl⟩

/-- Settles O19: as for `IN A`, with the latch copied into `b`. -/
theorem inBReadsLatchesAndCopies : Obligations.InBReadsLatchesAndCopies := by
  intro ign s hr
  obtain ⟨hprompt, hexhausted, -, -⟩ := abortLeavesExactState (.inB ign) s hr
  exact ⟨decode_eq_iff_masked (.inB ign),
    ⟨asmLine_sourceLine (i := .inB 0) rfl, rfl⟩,
    fun ha hok => exec_of_goOn_of_lineAccepted hr (inputOf_of_noRead (.inr ha)) hok (effectOf_inB_view ign s),
    fun ha ht h0 =>
      exec_of_goOn_of_lineRefused hr (inputOf_of_noRead (.inr ha)) ht h0 (effectOf_inB_view ign s),
    fun v ha hv hok =>
      exec_of_value_of_lineAccepted rfl hr ha hv hok (effectOf_inB_view ign (s.setInLatch v)),
    fun v ha hv ht h0 h1 =>
      exec_of_value_of_lineRefused rfl hr ha hv ht h0 h1 (effectOf_inB_view ign (s.setInLatch v)),
    fun ha hv hok => hexhausted rfl ha hok hv,
    hprompt rfl⟩

/-- Settles O40: the first read moves the second answer to the front, where the second read finds it. -/
theorem twoInsReadSuccessiveValues : Obligations.TwoInsReadSuccessiveValues := by
  intro m n v w s hr ha ht hv hw
  obtain ⟨t, hex, ⟨-, hat, htt⟩, hone, hview⟩ :=
    exec_of_value_of_lineAccepted rfl hr ha hv (fun h => absurd (ht.symm.trans h) (by decide))
      (effectOf_inA_view m (s.setInLatch v))
  have hrt : t.status = .running := (congrArg View.status hview).trans hr
  have hta : t.a = v := congrArg View.a hview
  obtain ⟨u, hex', -, hone', hview'⟩ :=
    exec_of_value_of_lineAccepted rfl hrt (hat.trans ha) ((hone.inAnswerAt 0).trans hw)
      (fun h => absurd ((htt.trans ht).symm.trans h) (by decide))
      (effectOf_inB_view n (t.setInLatch w))
  exact ⟨t, u, hex, hex', hrt, (congrArg View.status hview').trans hrt,
    (congrArg View.a hview').trans hta, congrArg View.b hview', congrArg View.inLatch hview',
    hone'.2.trans (congrArg (· + 1) hone.2),
    (hone'.inAnswerAt 0).trans (hone.inAnswerAt 1)⟩

end

section
/-! SUPPORT. The instructions that write no register, and the step that leaves the whole state as it is (spec
44_control.md R150, R151; 40_execution_cycle.md R104, R113). -/

namespace Sys2Proof.Machine

variable {i : Instr} {s : State}

/-- Phase 3 of an instruction that writes no register does nothing (R104). -/
theorem effectOf_of_writesOf_nil (h : writesOf i = []) (s : State) : effectOf i s = s := by
  cases i with
  | nop8 | nopB | nopC | nopD | jc | jmp => rfl
  | addA | movAB | inA | movAImm | movBA | movBImm | addB | inB | outB | outImm => nomatch h

theorem isIn_of_writesOf_nil (h : writesOf i = []) : i.isIn = false := by
  cases i with
  | inA | inB => nomatch h
  | _ => rfl

theorem effectOf_view_of_writesOf_nil (h : writesOf i = []) (s : State) :
    (effectOf i s).view = s.view := by
  rw [effectOf_of_writesOf_nil h]

/-- Without a trace, an instruction that writes no register and commits the `pc` it was fetched from leaves
the whole state. -/
theorem exec_self_of_committedPc (h : writesOf i = []) (hr : s.status = .running)
    (ht : s.traceAttached = false) (hpc : committedPc i s = s.pc) : exec i s = .next s := by
  rw [exec_of_untraced hr (inputOf_of_noRead (.inl (isIn_of_writesOf_nil h))) ht,
    nextOf_eq_committedPc, hpc, effectOf_of_writesOf_nil h]
  rfl

/-- A step that leaves the whole state is repeated by every run. -/
theorem core_run_of_step_self (h : step s = .next s) (n : Nat) :
    Host.Core.run Sys2Proof.core n s = .next s := by
  induction n with
  | zero => exact core_run_zero s
  | succ n ih => exact (core_run_succ n h).trans ih

end Sys2Proof.Machine
end

section
/-! The statements on the jumps (44_control.md R150, R151; 40_execution_cycle.md R113). -/

open Sys2Proof Sys2Proof.Machine

/-- Settles O12: phase 3 writes no register, and the trace line decides whether the `pc` that the carry flag
selects is committed. -/
theorem jcJumpsExactlyOnCarry : Obligations.JcJumpsExactlyOnCarry :=
  fun imm s hr =>
    ⟨decode_eq_iff_masked (.jc imm),
      fun hok => exec_of_lineAccepted rfl hr hok (effectOf_view_of_writesOf_nil rfl s),
      fun ht h0 => exec_of_lineRefused rfl hr ht h0 (effectOf_view_of_writesOf_nil rfl s)⟩

/-- Settles O13: as for `JC imm`, with the immediate committed whatever the carry flag is. -/
theorem jmpAlwaysJumps : Obligations.JmpAlwaysJumps :=
  fun imm s hr =>
    ⟨decode_eq_iff_masked (.jmp imm),
      fun hok => exec_of_lineAccepted rfl hr hok (effectOf_view_of_writesOf_nil rfl s),
      fun ht h0 => exec_of_lineRefused rfl hr ht h0 (effectOf_view_of_writesOf_nil rfl s)⟩

/-- Settles O34: either jump commits the `pc` it was fetched from, so its step leaves the whole state and every
run repeats it. -/
theorem jumpToItselfRepeatsForever : Obligations.JumpToItselfRepeatsForever := by
  intro n s hr ht hjump
  apply core_run_of_step_self
  rcases hjump with hi | ⟨hi, hc⟩
  · rw [stepRunsTheDecodedInstruction _ s hi]
    exact exec_self_of_committedPc rfl hr ht rfl
  · rw [stepRunsTheDecodedInstruction _ s hi]
    exact exec_self_of_committedPc rfl hr ht (if_pos hc)

end

section
/-! SUPPORT. The step of an instruction that writes no register and leaves the next pc sequential, and the name
the trace line shows for a reserved opcode (spec 45_reserved.md R160 to R163; 40_execution_cycle.md R107). -/

namespace Sys2Proof.Machine

/-- The whole step of a no-op: an accepted line lets it commit `(pc + 1) mod 16`, and a refused line leaves only
the abort (R109). -/
theorem exec_of_writesOf_nil_of_sequential {i : Instr} {s : State} (hwrites : writesOf i = [])
    (hpc : committedPc i s = addressAfter s.pc) (hr : s.status = .running) :
    ((s.traceAttached = true → s.traceAnswerAt 0 = .ok) →
      ∃ t, exec i s = .next t ∧ KeepsRomAndConfig s t ∧ AsksNoInput s t ∧
        t.view = { s.view with pc := addressAfter s.pc }) ∧
    (s.traceAttached = true → s.traceAnswerAt 0 = .fail →
      ∃ t, exec i s = .next t ∧ KeepsRomAndConfig s t ∧ AsksNoInput s t ∧
        t.view = { s.view with status := .aborted .outputFailure }) := by
  have hi : i.isIn = false := isIn_of_writesOf_nil hwrites
  have hview : (effectOf i s).view = s.view := effectOf_view_of_writesOf_nil hwrites s
  rw [← hpc]
  exact ⟨fun hok => exec_of_lineAccepted hi hr hok hview, fun ht h0 => exec_of_lineRefused hi hr ht h0 hview⟩

theorem opcodeName_of_reserved {op : Nibble} (h : op ∈ [0x8#4, 0xB#4, 0xC#4, 0xD#4]) :
    opcodeName op = Config.tracePlaceholder :=
  if_pos h

end Sys2Proof.Machine
end

section
/-! The statements on the reserved opcodes (45_reserved.md R160 to R163). -/

open Sys2Proof Sys2Proof.Machine

/-- Settles O14: phase 3 writes no register and the next pc is sequential; the trace line names the reserved
opcode by the placeholder. -/
theorem nop8OnlyAdvancesPc : Obligations.Nop8OnlyAdvancesPc :=
  fun ign _ hr =>
    ⟨decode_eq_iff_masked (.nop8 ign), opcodeName_of_reserved (by decide),
      exec_of_writesOf_nil_of_sequential rfl rfl hr⟩

/-- Settles O15: as for `NOP8`, at its own opcode. -/
theorem nopBOnlyAdvancesPc : Obligations.NopBOnlyAdvancesPc :=
  fun ign _ hr => ⟨decode_eq_iff_masked (.nopB ign), exec_of_writesOf_nil_of_sequential rfl rfl hr⟩

/-- Settles O16: as for `NOP8`, at its own opcode. -/
theorem nopCOnlyAdvancesPc : Obligations.NopCOnlyAdvancesPc :=
  fun ign _ hr => ⟨decode_eq_iff_masked (.nopC ign), exec_of_writesOf_nil_of_sequential rfl rfl hr⟩

/-- Settles O17: as for `NOP8`, at its own opcode. -/
theorem nopDOnlyAdvancesPc : Obligations.NopDOnlyAdvancesPc :=
  fun ign _ hr => ⟨decode_eq_iff_masked (.nopD ign), exec_of_writesOf_nil_of_sequential rfl rfl hr⟩

end

section
/-! SUPPORT. Where an abort comes from, and the invariant by run status (spec 60_exceptions.md R201;
40_execution_cycle.md R103, R107, R109; 20_memory.md R40). -/

namespace Sys2Proof.Machine

variable {i : Instr} {s t : State}

/-! ### The cause of an abort -/

theorem State.recordTrace_lastAnswer_of_fail (h0 : s.traceAnswerAt 0 = .fail) (text : TraceText) :
    (s.recordTrace text).traceLog.getLast?.map TraceRecord.answer = some .fail := by
  simp [h0]

/-- A step stopped in phase 2 met an exhausted input stream, or had its prompt refused (R103, R201). -/
theorem inputOf_stop_cause (h : inputOf i s = .stop t) :
    (t.status = .aborted .inputExhausted ∧ i.isIn = true ∧ s.inputAttached = true ∧
      s.inAnswerAt 0 = .exhausted) ∨
    (t.status = .aborted .outputFailure ∧ s.traceAttached = true ∧
      t.traceLog.getLast?.map TraceRecord.answer = some .fail) := by
  rcases inputOf_cases i s with
    ⟨-, e⟩ | ⟨-, -, v, -, ⟨-, e⟩ | ⟨-, -, e⟩⟩ | ⟨hi, ha, hv, ⟨-, e⟩ | ⟨-, -, e⟩⟩ | ⟨-, -, ht, h0, e⟩ <;>
    rw [e] at h <;> cases h
  case inr.inr.inr => exact .inr ⟨rfl, ht, State.recordTrace_lastAnswer_of_fail h0 .prompt⟩
  all_goals exact .inl ⟨rfl, hi, ha, hv⟩

/-! ### The invariant, by run status -/

theorem State.inv_of_running (hwf : Memory.wf s.rom = true) (hst : s.status = .running) : s.Inv := by
  simp [State.Inv, hwf, hst]

theorem State.inv_of_inputExhausted (hwf : Memory.wf s.rom = true)
    (hst : s.status = .aborted .inputExhausted) (ha : s.inputAttached = true)
    (hi : (decode (fetch s)).isIn = true) : s.Inv := by
  simp [State.Inv, hwf, hst, ha, hi]

theorem State.inv_of_outputFailure (hwf : Memory.wf s.rom = true)
    (hst : s.status = .aborted .outputFailure) (ht : s.traceAttached = true)
    (hlog : s.traceLog.getLast?.map TraceRecord.answer = some .fail) : s.Inv :=
  ⟨hwf, fun h => by simp [hst] at h, fun _ => ⟨ht, hlog⟩⟩

theorem fetch_congr (hrom : t.rom = s.rom) (hpc : t.pc = s.pc) : fetch t = fetch s := by
  simp only [fetch, hrom, hpc]

end Sys2Proof.Machine
end

section
/-! The statements on abnormal ends and the invariant of a step (60_exceptions.md R200, R201, R203). -/

open Sys2Proof Sys2Proof.Machine

/-- Settles O23: a step stops in phase 2 for one of its two causes, aborts at a refused trace line, or
completes with the status phase 2 and phase 3 have kept. -/
theorem onlyTwoAbnormalEnds : Obligations.OnlyTwoAbnormalEnds := by
  intro i s hr
  rcases exec_cases i hr with
    ⟨t, hin, e⟩ | ⟨s2, hin, -, e⟩ | ⟨s2, hin, -, -, e⟩ | ⟨s2, hin, ht2, h0, e⟩
  · obtain ⟨-, hpc, -⟩ := inputOf_stop_keeps hin
    rcases inputOf_stop_cause hin with ⟨hst, hi, ha, hv⟩ | ⟨hst, ht, hlog⟩
    · exact ⟨t, e, .inr (.inl ⟨hst, hi, ha, hv, hpc⟩)⟩
    · exact ⟨t, e, .inr (.inr ⟨hst, ht, hpc, hlog⟩)⟩
  all_goals
    obtain ⟨-, hpc, -, hst, -⟩ := effectOf_keeps i s2
    obtain ⟨hst2, hpc2, -⟩ := inputOf_goOn_keeps hin
  · exact ⟨_, e, .inl (hst.trans (hst2.trans hr))⟩
  · exact ⟨_, e, .inl (hst.trans (hst2.trans hr))⟩
  · have ht : s.traceAttached = true := (traceAttached_of_inputOf_goOn hin).symm.trans ht2
    have hfail : (effectOf i s2).traceAnswerAt 0 = .fail := (effectOf_traceAnswerAt i s2 0).trans h0
    exact ⟨_, e, .inr (.inr ⟨rfl, ht, hpc.trans hpc2, State.recordTrace_lastAnswer_of_fail hfail _⟩)⟩

/-- Settles O37: the step establishes the cause of its abort (O23), and it has kept what that cause speaks
of: the ROM, the configuration (O36) and, where it aborts, `pc`. -/
theorem everyStepKeepsTheInvariant : Obligations.EveryStepKeepsTheInvariant := by
  rintro s t ⟨hwf, -, -⟩ hstep
  have hr : s.status = .running := running_of_exec_next hstep
  obtain ⟨t', hstep', hrom, hattIn, hattTrace⟩ := romAndConfigurationAreConstant s hr
  cases hstep.symm.trans hstep'
  obtain ⟨t', hexec, hend⟩ := onlyTwoAbnormalEnds (decode (fetch s)) s hr
  cases hstep.symm.trans hexec
  rw [← hrom] at hwf
  rcases hend with hst | ⟨hst, hi, ha, -, hpc⟩ | ⟨hst, ht, -, hlog⟩
  · exact State.inv_of_running hwf hst
  · exact State.inv_of_inputExhausted hwf hst (hattIn.trans ha) (fetch_congr hrom hpc ▸ hi)
  · exact State.inv_of_outputFailure hwf hst (hattTrace.trans ht) hlog

end

section
/-! SUPPORT. The reset event, the load of an image, and the ROM's round trip through its dump (spec
70_reset_and_hazards.md R250 to R254). -/

namespace Sys2Proof.Machine

/-! ### Reset and load -/

/-- The reset values of every register, latch and flag, of `pc` and of the status (R250, R33). -/
@[simp] theorem State.view_applyReset (s : State) :
    s.applyReset.view = ⟨0, 0, 0, 0, false, 0, .running⟩ := rfl

theorem loadImage_of_fits {bytes : List Byte} (h : bytes.length ≤ 16) :
    loadImage bytes = some (romFrom 0 bytes) :=
  if_pos (decide_eq_true h)

theorem loadImage_of_tooLong {bytes : List Byte} (h : 16 < bytes.length) : loadImage bytes = none :=
  if_neg (by simpa [imageWellFormed] using h)

theorem State.loadRom_of_fits {image : List Byte} (h : image.length ≤ 16) (s : State) :
    s.loadRom image = some { s with rom := romFrom 0 image } := by
  rw [State.loadRom, loadImage_of_fits h, Option.map_some]

/-! ### A canonical ROM is the image of its 16 entries -/

/-- In canonical form from `low` on, either `low` is unlisted or it heads the list. -/
theorem Memory.wfFrom_cases {low : Nat} {m : Memory} (h : Memory.wfFrom low m = true) :
    Memory.wfFrom (low + 1) m = true ∨
    ∃ v rest, m = (low, v) :: rest ∧ v ≠ unfilledByte ∧ Memory.wfFrom (low + 1) rest = true := by
  cases m with
  | nil => exact .inl rfl
  | cons c rest =>
    obtain ⟨k, v⟩ := c
    simp only [Memory.wfFrom, Bool.and_eq_true, decide_eq_true_eq] at h ⊢
    obtain ⟨⟨⟨hlow, hk⟩, hv⟩, hrest⟩ := h
    rcases Nat.eq_or_lt_of_le hlow with rfl | hlt
    · exact .inr ⟨v, rest, rfl, hv, hrest⟩
    · exact .inl ⟨⟨⟨hlt, hk⟩, hv⟩, hrest⟩

/-- From address 16 on a canonical ROM lists nothing. -/
theorem Memory.eq_nil_of_wfFrom {m : Memory} (h : Memory.wfFrom 16 m = true) : m = [] := by
  cases m with
  | nil => rfl
  | cons c rest =>
    simp only [Memory.wfFrom, Bool.and_eq_true, decide_eq_true_eq] at h
    omega

/-- The entries from `low` to 15, placed from `low` on, are the ROM again where it is canonical from there. -/
theorem romFrom_lookups {low n : Nat} (hn : low + n = 16) {m : Memory}
    (hm : Memory.wfFrom low m = true) :
    romFrom low ((List.range' low n).map (Memory.lookup m)) = m := by
  induction n generalizing low m with
  | zero =>
    obtain rfl : low = 16 := hn
    exact (Memory.eq_nil_of_wfFrom hm).symm
  | succ n ih =>
    have hn' : low + 1 + n = 16 := by omega
    rw [List.range'_succ, List.map_cons, romFrom]
    rcases Memory.wfFrom_cases hm with hm' | ⟨v, rest, rfl, hv, hrest⟩
    · rw [if_pos (Memory.lookup_below (Nat.lt_succ_self low) hm')]
      exact ih hn' hm'
    · have hhead : Memory.lookup ((low, v) :: rest) low = v := if_pos rfl
      have htail : (List.range' (low + 1) n).map (Memory.lookup ((low, v) :: rest)) =
          (List.range' (low + 1) n).map (Memory.lookup rest) :=
        List.map_congr_left fun k hk =>
          if_neg (Nat.ne_of_lt (Nat.lt_of_succ_le (List.mem_range'_1.mp hk).1))
      rw [hhead, if_neg hv, htail, ih hn' hrest]

theorem romFrom_romBytes {m : Memory} (h : Memory.wf m = true) : romFrom 0 (romBytes m) = m := by
  rw [romBytes, List.range_eq_range']
  exact romFrom_lookups rfl h

@[simp] theorem length_romBytes (m : Memory) : (romBytes m).length = 16 := by
  simp [romBytes]

/-! ### The tokens of a dump -/

/-- The token of one dump line: the byte in capital hex digits after `0x` (93_implementation_defined.md
G2). -/
def dumpToken (b : Byte) : List Char :=
  if b.toNat < 16 then ['0', 'x', capitalHexDigit b.toNat]
  else ['0', 'x', capitalHexDigit (b.toNat / 16), capitalHexDigit (b.toNat % 16)]

theorem dumpByte_eq_token (b : Byte) : dumpByte b = dumpToken b ++ [',', '\n'] := rfl

theorem hexDigitValue_capitalHexDigit : ∀ n < 16, hexDigitValue (capitalHexDigit n) = some n := by decide

theorem capitalHexDigit_not_separator : ∀ n < 16, isHexSeparator (capitalHexDigit n) = false := by decide

/-- A dumped token reads back as its byte (R253). -/
theorem hexToken_dumpToken (b : Byte) : hexToken (dumpToken b) = some b := by
  have hlt : b.toNat < 256 := b.isLt
  unfold dumpToken
  split
  · next hsmall =>
    simp [hexToken, hexFrom, hexDigitValue_capitalHexDigit _ hsmall, hlt]
  · have hhigh := hexDigitValue_capitalHexDigit (b.toNat / 16) (by omega)
    have hlow := hexDigitValue_capitalHexDigit (b.toNat % 16) (by omega)
    simp [hexToken, hexFrom, hhigh, hlow, Nat.div_add_mod, hlt]

theorem dumpToken_ne_nil (b : Byte) : dumpToken b ≠ [] := by
  unfold dumpToken
  split <;> exact List.cons_ne_nil _ _

theorem dumpToken_not_separator (b : Byte) : ∀ c ∈ dumpToken b, isHexSeparator c = false := by
  have hlt : b.toNat < 256 := b.isLt
  have h0 : isHexSeparator '0' = false := by decide
  have hx : isHexSeparator 'x' = false := by decide
  unfold dumpToken
  split
  · next hsmall => simp [h0, hx, capitalHexDigit_not_separator _ hsmall]
  · have hhigh := capitalHexDigit_not_separator (b.toNat / 16) (by omega)
    have hlow := capitalHexDigit_not_separator (b.toNat % 16) (by omega)
    simp [h0, hx, hhigh, hlow]

/-- A leading separator makes no piece. -/
theorem piecesOf_sep_cons {sep : Char → Bool} {c : Char} (hc : sep c = true) (rest : List Char) :
    piecesOf sep (c :: rest) = piecesOf sep rest := by
  simp [piecesOf, splitAtChars_cons_sep hc]

/-- The tokens of a dump are those of its bytes, in order. -/
theorem hexTokenTexts_dumpBytes (bytes : List Byte) :
    hexTokenTexts (dumpBytes bytes) = bytes.map dumpToken := by
  induction bytes with
  | nil => rfl
  | cons b bytes ih =>
    calc hexTokenTexts (dumpBytes (b :: bytes))
        = piecesOf isHexSeparator (dumpToken b ++ ',' :: '\n' :: dumpBytes bytes) := by
          simp [hexTokenTexts, dumpBytes, dumpByte_eq_token]
      _ = dumpToken b :: piecesOf isHexSeparator ('\n' :: dumpBytes bytes) :=
          piecesOf_append_sep (by decide) (dumpToken_ne_nil b) (dumpToken_not_separator b) _
      _ = dumpToken b :: hexTokenTexts (dumpBytes bytes) := by
          rw [piecesOf_sep_cons (by decide)]; rfl
      _ = (b :: bytes).map dumpToken := by rw [ih, List.map_cons]

theorem hexTokens_dumpTokens (bytes : List Byte) : hexTokens (bytes.map dumpToken) = some bytes := by
  induction bytes with
  | nil => rfl
  | cons b bytes ih => simp [hexTokens, hexToken_dumpToken, ih]

/-- The dump of an image's bytes is an admitted hex image of that image. -/
theorem loadHexText_dumpBytes {bytes : List Byte} (h : bytes.length ≤ 16) :
    loadHexText (dumpBytes bytes) = .loaded (romFrom 0 bytes) := by
  have hadmitted : admittedHexImage (dumpBytes bytes) = some (romFrom 0 bytes) := by
    simp only [admittedHexImage, hexTokenTexts_dumpBytes, hexTokens_dumpTokens, loadImage_of_fits h]
  simp only [loadHexText, loadHexTextWith, hadmitted]

/-! ### A step and the `JC` after it -/

/-- A `JC` right after a sequential step that reads no input tests the carry flag that step's phase 3 leaves
(R255). -/
theorem exec_then_jc {i : Instr} {s : State} {overflow : Prop} [Decidable overflow] (k : Nibble)
    (hi : i.isIn = false) (hpc : committedPc i s = addressAfter s.pc) (hr : s.status = .running)
    (hok : s.traceAttached = true → s.traceAnswerAt 0 = .ok ∧ s.traceAnswerAt 1 = .ok)
    (hcarry : (effectOf i s).view.carry = decide overflow) :
    ∃ t u, exec i s = .next t ∧ exec (.jc k) t = .next u ∧
      t.status = .running ∧ u.status = .running ∧
      u.pc = if overflow then k else addressAfter (addressAfter s.pc) := by
  obtain ⟨-, -, -, hst, -⟩ := effectOf_keeps i s
  obtain ⟨t, hex, -, -, hview⟩ := exec_of_lineAccepted hi hr (fun ht => (hok ht).1) rfl
  have htst : t.status = .running := (congrArg View.status hview).trans (hst.trans hr)
  have htpc : t.pc = addressAfter s.pc := (congrArg View.pc hview).trans hpc
  have htc : t.carry = decide overflow := (congrArg View.carry hview).trans hcarry
  have hok' := lineAccepted_after_exec hi hex fun ht => (hok ht).2
  obtain ⟨u, hex', -, -, hview'⟩ :=
    exec_of_lineAccepted (i := .jc k) rfl htst hok' (effectOf_view_of_writesOf_nil rfl t)
  refine ⟨t, u, hex, hex', htst, (congrArg View.status hview').trans htst, ?_⟩
  calc u.pc = if t.carry = true then k else addressAfter t.pc := congrArg View.pc hview'
    _ = if overflow then k else addressAfter (addressAfter s.pc) := by simp [htc, htpc]

end Sys2Proof.Machine
end

section
/-! The statements on reset, the ROM's loading and dumping, and hazards (70_reset_and_hazards.md R250 to
R255). -/

open Sys2Proof Sys2Proof.Machine

/-- Settles O33: either `ADD` leaves its overflow in the carry flag, and the `JC` after it tests that flag. -/
theorem addThenJcTestsTheSum : Obligations.AddThenJcTestsTheSum :=
  fun imm k s hr hok =>
    ⟨exec_then_jc k rfl rfl hr hok (congrArg View.carry (effectOf_addA_view imm s)),
      exec_then_jc k rfl rfl hr hok (congrArg View.carry (effectOf_addB_view imm s))⟩

/-- Settles O46: the dump's tokens read back as the 16 entries, and a canonical ROM is their image. -/
theorem dumpLoadsBackTheSameRom : Obligations.DumpLoadsBackTheSameRom := by
  intro m hwf
  refine ⟨dumpBytes (romBytes m), rfl, ?_, ?_⟩
  · rw [hexTokenTexts_dumpBytes, List.length_map, length_romBytes]
  · rw [loadHexText_dumpBytes (length_romBytes m).le, romFrom_romBytes hwf]

/-- Settles O47: what is loaded is the image placed from entry 0 on, and a longer image is refused. -/
theorem loadedImageFillsTheRomInOrder : Obligations.LoadedImageFillsTheRomInOrder := by
  intro image s
  constructor
  · intro hfit
    exact ⟨_, State.loadRom_of_fits hfit s, rfl, loadImage_wf (loadImage_of_fits hfit), read_romFrom hfit⟩
  · intro hlong
    rw [State.loadRom, loadImage_of_tooLong hlong, Option.map_none]

/-- Settles O38: either reset leaves the status running, so the invariant asks only for the canonical ROM. -/
theorem resetHasTheInvariant : Obligations.ResetHasTheInvariant :=
  ⟨State.inv_of_running rfl rfl, fun _ hwf => State.inv_of_running hwf rfl⟩

/-- Settles O39: the reset values, field by field, and a ROM that lists nothing reads unfilled everywhere. -/
theorem resetZeroesEverythingButTheRom : Obligations.ResetZeroesEverythingButTheRom :=
  ⟨fun s => ⟨s.view_applyReset, s.applyReset_rom⟩, rfl, fun _ => rfl⟩

/-- Settles O48: the reset after the load and the choice of streams keeps the ROM and the streams. -/
theorem startedRunBeginsAtZero : Obligations.StartedRunBeginsAtZero := by
  intro image input trace ins traces s hfit
  rw [State.startRun, State.loadRom_of_fits hfit, Option.map_some]
  exact ⟨_, rfl, State.view_applyReset _, rfl, rfl, rfl, rfl, rfl⟩

end
